-- ==== Sys2Proof/Word.lean ====
section
/-! DEFINITION. The widths of the machine's words (00_scope.md R8, R9, R10). -/

namespace Sys2Proof

/-- The contents of a register or a cell: 8 bits (00_scope.md R8 `XLEN`, R10). -/
abbrev Byte := BitVec 8

/-- A memory address, a branch target or a program counter: 8 bits (00_scope.md R8 `ALEN`; 10_state.md R23). -/
abbrev Addr := BitVec 8

/-- An instruction word: 16 bits, four hex digits (00_scope.md R9; 30_encoding.md R90). -/
abbrev Word := BitVec 16

/-- A register index, one hex digit (10_state.md R20; 30_encoding.md R92). -/
abbrev Reg := BitVec 4

/-- One hex digit of an instruction word (00_scope.md R9). -/
abbrev Digit := BitVec 4

end Sys2Proof
end

