-- ==== Sys2Proof/Config.lean ====
section
/-! DEFINITION. The parameters of the hardware (00_scope.md R8) and the one value the spec leaves free. -/

namespace Sys2Proof

/-- The two settings of `FLOAT_ZERO_POLICY` (40_codec.md R130; 92_eei_decisions.md D6). Which one a machine has stands in
its State (assumption log 1), so that one step function covers both. -/
inductive FloatZeroPolicy where
  /-- `ENCODE_00`: `encodeFloat(0) = 0x00`. -/
  | encode00
  /-- `STUCK`: the cycle that calls `encodeFloat(0)` never completes. -/
  | stuck
deriving DecidableEq, Repr

/-- The spec's default setting, `ENCODE_00` (00_scope.md R8; 92_eei_decisions.md D6). -/
def Config.defaultFloatZeroPolicy : FloatZeroPolicy := .encode00

/-- `DEFAULT_LOAD_ADDR` (00_scope.md R8; 70_reset_and_hazards.md R281). -/
def Config.defaultLoadAddr : Addr := 0x10#8

/-- `MAX_CYCLES`, the run limit when the host gives none (00_scope.md R8; 41_fetch_decode.md R157; 90_conflicts.md C3). -/
def Config.defaultMaxCycles : Nat := 128

/-- `MEMSIZE` (00_scope.md R8). -/
def Config.memSize : Nat := 256

/-- `NREGS` (00_scope.md R8). -/
def Config.numRegs : Nat := 16

/-- What an unlisted cell reads as: the reset fill 0x00 (10_state.md R38, R39). -/
def Config.unlistedByte : Byte := 0x00#8

/-- The character by which a display shows a byte 0x80..0xFF. A FREE VALUE: the spec leaves it to the excluded display
layer (20_memory.md R62; 93_implementation_defined.md I9). DESIGN CHOICE (assumption log 14, safe). -/
opaque Config.displayChar : Byte → Char

end Sys2Proof
end

