-- ==== Sys2Proof/Syntax.lean ====
section
/-! DEFINITION. The instructions: one constructor per row of the opcode table (30_encoding.md R91, R93). -/

namespace Sys2Proof

/-- An instruction. The operands are those of 30_encoding.md R91 and R92, in the order of the digits d1, d2, d3.
The digits that R91 marks `-` are carried as `ign`, so that decoding loses no bit of a word (assumption log 19,
DESIGN CHOICE, safe); R95 says they have no effect, and no meaning reads them. -/
inductive Instr where
  /-- Opcode 1, format RXY (42_transfer.md R180). -/
  | loadm (r : Reg) (xy : Addr)
  /-- Opcode 2, format RXY (42_transfer.md R181). -/
  | loadi (r : Reg) (xy : Byte)
  /-- Opcode 3, format RXY (42_transfer.md R182). -/
  | store (r : Reg) (xy : Addr)
  /-- Opcode 4, format _RS: `r` (d2) is the source and `s` (d3) the destination (42_transfer.md R183). -/
  | move (ign : Digit) (r s : Reg)
  /-- Opcode 5, format RST (43_alu.md R200). -/
  | addi (r s t : Reg)
  /-- Opcode 6, format RST (43_alu.md R201). -/
  | addf (r s t : Reg)
  /-- Opcode 7, format RST (43_alu.md R202). -/
  | or (r s t : Reg)
  /-- Opcode 8, format RST (43_alu.md R203). -/
  | and (r s t : Reg)
  /-- Opcode 9, format RST (43_alu.md R204). -/
  | xor (r s t : Reg)
  /-- Opcode A, format R_X: `x` is the rotate count (43_alu.md R205). -/
  | ror (r : Reg) (ign : Digit) (x : Digit)
  /-- Opcode B, format RXY (44_control.md R230). -/
  | jeq (r : Reg) (xy : Addr)
  /-- Opcode C, format ___ (44_control.md R231). -/
  | halt (ign : BitVec 12)
  /-- Opcode D, format RXY (44_control.md R232). -/
  | jlt (r : Reg) (xy : Addr)
deriving DecidableEq, Repr

/-- The pseudo-instruction `JMP 0xXY` = `JEQ R0, 0xXY` (30_encoding.md R99). -/
def Instr.jmp (xy : Addr) : Instr := .jeq 0#4 xy

/-- The pseudo-instruction `NOP` = `MOVE R0, R0` (30_encoding.md R99). -/
def Instr.nop : Instr := .move 0#4 0#4 0#4

end Sys2Proof
end

