-- ==== Sys2Proof/WellFormed.lean ====
section
/-! DEFINITION. What a well-formed word is, and which instruction terms an assembler writes.

The operand widths stand in the types of `Instr`, so every term of `Instr` is an instruction of the hardware
(30_encoding.md R92, R95): no check on the operands of a term is left to make. Two checks remain: a raw WORD may be no
instruction at all (R94), and a term may be a spelling that no assembler writes (R98). -/

namespace Sys2Proof

/-- A word is an instruction exactly when its first hex digit is 1..D (30_encoding.md R93, R94, R95). Written by
arithmetic on the word's number, apart from the decoder's bit fields. -/
def wordLegal (w : Word) : Bool := 1 ≤ w.toNat / 4096 && w.toNat / 4096 ≤ 13

/-- The term is a spelling an assembler writes: 0 in every ignored digit (30_encoding.md R98). -/
def Instr.assembled : Instr → Bool
  | .loadm _ _ => true
  | .loadi _ _ => true
  | .store _ _ => true
  | .move ign _ _ => ign == 0#4
  | .addi _ _ _ => true
  | .addf _ _ _ => true
  | .or _ _ _ => true
  | .and _ _ _ => true
  | .xor _ _ _ => true
  | .ror _ ign _ => ign == 0#4
  | .jeq _ _ => true
  | .halt ign => ign == 0#12
  | .jlt _ _ => true

end Sys2Proof
end

