-- ==== Sys2Proof/Decode.lean ====
section
/-! DEFINITION. The decoder, total on any word and any bytes, and the encoder (30_encoding.md R90 to R96). -/

namespace Sys2Proof

/-- `d0 = w[15:12]`, the opcode digit (00_scope.md R9). -/
def digit0 (w : Word) : Digit := w.extractLsb' 12 4
/-- `d1 = w[11:8]` (00_scope.md R9). -/
def digit1 (w : Word) : Digit := w.extractLsb' 8 4
/-- `d2 = w[7:4]` (00_scope.md R9). -/
def digit2 (w : Word) : Digit := w.extractLsb' 4 4
/-- `d3 = w[3:0]` (00_scope.md R9). -/
def digit3 (w : Word) : Digit := w.extractLsb' 0 4
/-- `xy = w[7:0]` (00_scope.md R9). -/
def operandXY (w : Word) : Byte := w.extractLsb' 0 8
/-- `w[11:0]`, the three ignored digits of opcode C (30_encoding.md R91). -/
def digits123 (w : Word) : BitVec 12 := w.extractLsb' 0 12

/-- The high byte `w[15:8]`, which the cell at the lower address holds (20_memory.md R64, R65). -/
def highByte (w : Word) : Byte := w.extractLsb' 8 8
/-- The low byte `w[7:0]`, which the next cell holds (20_memory.md R64, R65). -/
def lowByte (w : Word) : Byte := w.extractLsb' 0 8
/-- Two cells joined to an instruction word, the lower address in the high byte (20_memory.md R64). -/
def joinBytes (hi lo : Byte) : Word := hi ++ lo

/-- Why a decoder gives no instruction. -/
inductive Reject where
  /-- The first hex digit is 0, E or F (30_encoding.md R94). -/
  | unknownOpcode (w : Word)
  /-- Fewer than two bytes: every instruction is two cells (30_encoding.md R90). -/
  | truncated
deriving DecidableEq, Repr

/-- The instruction a word stands for, selected by `d0` alone (30_encoding.md R93; 41_fetch_decode.md R152). -/
def decodeWord (w : Word) : Except Reject Instr :=
  match (digit0 w).toNat with
  | 1 => .ok (.loadm (digit1 w) (operandXY w))
  | 2 => .ok (.loadi (digit1 w) (operandXY w))
  | 3 => .ok (.store (digit1 w) (operandXY w))
  | 4 => .ok (.move (digit1 w) (digit2 w) (digit3 w))
  | 5 => .ok (.addi (digit1 w) (digit2 w) (digit3 w))
  | 6 => .ok (.addf (digit1 w) (digit2 w) (digit3 w))
  | 7 => .ok (.or (digit1 w) (digit2 w) (digit3 w))
  | 8 => .ok (.and (digit1 w) (digit2 w) (digit3 w))
  | 9 => .ok (.xor (digit1 w) (digit2 w) (digit3 w))
  | 10 => .ok (.ror (digit1 w) (digit2 w) (digit3 w))
  | 11 => .ok (.jeq (digit1 w) (operandXY w))
  | 12 => .ok (.halt (digits123 w))
  | 13 => .ok (.jlt (digit1 w) (operandXY w))
  | _ => .error (.unknownOpcode w)

/-- Decoding a list of bytes: the first two are the instruction, the rest is given back (30_encoding.md R90). -/
def decodeBytes : List Byte → Except Reject (Instr × List Byte)
  | hi :: lo :: rest =>
    match decodeWord (joinBytes hi lo) with
    | .ok i => .ok (i, rest)
    | .error e => .error e
  | [_] => .error .truncated
  | [] => .error .truncated

/-- The opcode digit of an instruction (30_encoding.md R93). -/
def Instr.opcode : Instr → Digit
  | .loadm _ _ => 0x1#4
  | .loadi _ _ => 0x2#4
  | .store _ _ => 0x3#4
  | .move _ _ _ => 0x4#4
  | .addi _ _ _ => 0x5#4
  | .addf _ _ _ => 0x6#4
  | .or _ _ _ => 0x7#4
  | .and _ _ _ => 0x8#4
  | .xor _ _ _ => 0x9#4
  | .ror _ _ _ => 0xA#4
  | .jeq _ _ => 0xB#4
  | .halt _ => 0xC#4
  | .jlt _ _ => 0xD#4

/-- The twelve bits below the opcode digit (30_encoding.md R91). -/
def Instr.operandBits : Instr → BitVec 12
  | .loadm r xy => r ++ xy
  | .loadi r xy => r ++ xy
  | .store r xy => r ++ xy
  | .move ign r s => ign ++ r ++ s
  | .addi r s t => r ++ s ++ t
  | .addf r s t => r ++ s ++ t
  | .or r s t => r ++ s ++ t
  | .and r s t => r ++ s ++ t
  | .xor r s t => r ++ s ++ t
  | .ror r ign x => r ++ ign ++ x
  | .jeq r xy => r ++ xy
  | .halt ign => ign
  | .jlt r xy => r ++ xy

/-- The word of an instruction (30_encoding.md R91, R98). -/
def encode (i : Instr) : Word := i.opcode ++ i.operandBits

/-- The two bytes of an instruction as memory holds them (20_memory.md R64, R65). -/
def encodeBytes (i : Instr) : List Byte := [highByte (encode i), lowByte (encode i)]

/-- The first word of an instruction given as a number of `nbits` bits; every bit above `nbits` is 0. -/
def tableWord (nbits w : Nat) : Word := BitVec.ofNat 16 (w % 2 ^ nbits)

/-- What the decoder reads from the bits of an opcode-table row, laid out as memory holds them. -/
def decodeTableWord (nbits w : Nat) : Option Instr :=
  match decodeBytes [highByte (tableWord nbits w), lowByte (tableWord nbits w)] with
  | .ok (i, _) => some i
  | .error _ => none

end Sys2Proof
end

