-- ==== Sys2Proof/Machine/State.lean ====
section
/-! DEFINITION. The machine's state as plain data (10_state.md), the error kinds (60_exceptions.md R250), and how a step
can stop. -/

namespace Sys2Proof.Machine

/-- The four states of the control FSM (10_state.md R33; 41_fetch_decode.md R155). -/
inductive Fsm where
  /-- IDLE: between host commands, no fault. -/
  | idle
  /-- FETCH: the first phase of a cycle. -/
  | fetch
  /-- EXECUTE: the second phase of a cycle. -/
  | execute
  /-- FAULTED: a fault is latched. -/
  | faulted
deriving DecidableEq, Repr

/-- The error kinds (60_exceptions.md R250). -/
inductive ErrorKind where
  | outOfRange
  | memoryExhausted
  | programTooLarge
  | unknownOpcode
  | fileUnavailable
  | malformedToken
deriving DecidableEq, Repr

/-- Which text of a load is malformed: the start address, or the token of an index (70_reset_and_hazards.md R280,
60_exceptions.md R250 "the token's position"). -/
inductive TextSite where
  | start
  | token (index : Nat)
deriving DecidableEq, Repr

/-- A latched fault: its kind and the info R250 records for that kind (10_state.md R30; 60_exceptions.md R250). Only the
four kinds that latch have a record. -/
inductive FaultRecord where
  /-- `MemoryExhausted(pc)` (60_exceptions.md R252). -/
  | memoryExhausted (pc : Addr)
  /-- `ProgramTooLarge(a)`: the load address of the failing token, which can be 256 (60_exceptions.md R253). -/
  | programTooLarge (loadAddr : Nat)
  /-- `UnknownOpcode(ir, pc - 2)` (60_exceptions.md R254). -/
  | unknownOpcode (ir : Word) (addr : Addr)
  /-- `MalformedToken`: the position and the text (60_exceptions.md R256). -/
  | malformedToken (site : TextSite) (text : List Char)
deriving DecidableEq, Repr

/-- The architectural state: the record of 10_state.md, and the setting of the parameter `FLOAT_ZERO_POLICY`. -/
structure State where
  /-- `x[0..15]` (10_state.md R20). -/
  regs : Vector Byte 16
  /-- The program counter, an integer 0..255 (10_state.md R23). -/
  pc : Addr
  /-- `mem[0..255]`: the cells that do not hold 0x00, by rising address (10_state.md R27; assumption log 9). -/
  mem : List Host.Cell
  /-- `out`, oldest byte first (10_state.md R31). -/
  out : List Byte
  /-- `halt_flag` (10_state.md R29). -/
  haltFlag : Bool
  /-- `fault` (10_state.md R30). -/
  fault : Option FaultRecord
  /-- `fsm` (10_state.md R33). -/
  fsm : Fsm
  /-- `ir` (10_state.md R32). -/
  ir : Word
  /-- `cycles` (10_state.md R34). -/
  cycles : Nat
  /-- `FLOAT_ZERO_POLICY` (00_scope.md R8). The MODEL's own field; nothing changes it (assumption log 1). -/
  floatZeroPolicy : FloatZeroPolicy
deriving DecidableEq, Repr

/-- Why the machine stops with no next state. -/
inductive Fault where
  /-- Raised by `execAddf` when the exact sum is 0 and `FLOAT_ZERO_POLICY` is `STUCK`: the cycle never completes and has
  no next step (40_codec.md R130; 41_fetch_decode.md R155). Safe: no claim about a later state follows (assumption
  log 2). -/
  | floatZeroStuck
deriving DecidableEq, Repr

/-- Why a step is refused. -/
inductive Refusal where
  /-- Raised by an arm of `exec` whose instruction has no meaning in the model. Safe. -/
  | notModelled (mnemonic : String)
  /-- Raised by `step` and `runCycle` in a state with `fsm` = FAULTED: the hardware refuses to run until a successful
  load (41_fetch_decode.md R156, R161; 93_implementation_defined.md I5). Safe (assumption log 5). -/
  | faultLatched
deriving DecidableEq, Repr

/-- The power-on state (10_state.md R39), with `ir` = 0x0000 (assumption log 3, DESIGN CHOICE: the spec leaves it
unspecified) and the default `FLOAT_ZERO_POLICY` (assumption log 1). -/
def State.reset : State where
  regs := Vector.replicate 16 0x00#8
  pc := Config.defaultLoadAddr
  mem := []
  out := []
  haltFlag := false
  fault := none
  fsm := .idle
  ir := 0x0000#16
  cycles := 0
  floatZeroPolicy := Config.defaultFloatZeroPolicy

end Sys2Proof.Machine
end

