-- ==== Sys2Proof/Machine/Ops.lean ====
section
/-! DEFINITION. The named operations over memory, registers, the output port and the fault status. -/

namespace Sys2Proof.Machine

/-! ## Memory as a canonical list of cells (10_state.md R27; assumption log 9) -/

/-- The byte of cell `a`; an unlisted cell holds the reset fill. -/
def Memory.read : List Host.Cell → Nat → Byte
  | [], _ => Config.unlistedByte
  | (k, v) :: m, a => if k = a then v else Memory.read m a

/-- Memory without an entry for `a`. -/
def Memory.erase (m : List Host.Cell) (a : Nat) : List Host.Cell := m.filter (fun c => c.1 != a)

/-- Memory with the entry `(a, v)` put in front of the first entry of a higher address. -/
def Memory.insert (a : Nat) (v : Byte) : List Host.Cell → List Host.Cell
  | [] => [(a, v)]
  | (k, w) :: m => if a < k then (a, v) :: (k, w) :: m else (k, w) :: Memory.insert a v m

/-- Memory after cell `a` is set to `v`. A cell that then holds what an unlisted cell reads as is not listed. -/
def Memory.write (m : List Host.Cell) (a : Nat) (v : Byte) : List Host.Cell :=
  if v = Config.unlistedByte then Memory.erase m a else Memory.insert a v (Memory.erase m a)

/-- Every listed address is above `lo`, they rise strictly, they are addresses of the machine, and no listed byte is what
an unlisted cell reads as. -/
def Memory.wfAbove : Nat → List Host.Cell → Bool
  | _, [] => true
  | lo, (k, v) :: m => lo ≤ k && k < Config.memSize && v != Config.unlistedByte && Memory.wfAbove (k + 1) m

/-- The canonical form of a memory. -/
def Memory.wf (m : List Host.Cell) : Bool := Memory.wfAbove 0 m

/-- All 256 cells in order of address (41_fetch_decode.md R159). -/
def Memory.cells (m : List Host.Cell) : List Byte := (List.range Config.memSize).map (Memory.read m)

/-! ## `MemRead`, `MemWrite` and `emit` (20_memory.md R60, R61, R64) -/

/-- `emit(v)`: append `v` to the output stream (00_scope.md R11; 10_state.md R31). -/
def State.emit (s : State) (v : Byte) : State := { s with out := s.out ++ [v] }

/-- `MemRead(a, 1)` for an address 0..255 (20_memory.md R60). -/
def State.memRead (s : State) (a : Addr) : Byte := Memory.read s.mem a.toNat

/-- Set cell `a` to `v`, without the side effect of cell 0. -/
def State.setCell (s : State) (a : Addr) (v : Byte) : State := { s with mem := Memory.write s.mem a.toNat v }

/-- `MemWrite(a, 1, v)` for an address 0..255: the one write path, with the cell-0 output side effect (20_memory.md R61). -/
def State.memWrite (s : State) (a : Addr) (v : Byte) : State :=
  if a = 0#8 then (s.setCell a v).emit v else s.setCell a v

/-- `MemRead(a, 2)`: the cells `a` and `a + 1`, the lower address in the high byte (20_memory.md R64). -/
def State.memRead2 (s : State) (a : Addr) : Word := joinBytes (s.memRead a) (s.memRead (a + 1#8))

/-! ## `OutOfRange` (60_exceptions.md R251): the primitives for any address -/

/-- What an index of an `OutOfRange` error names (60_exceptions.md R250). -/
inductive Space where
  | register
  | memory
  | pc
deriving DecidableEq, Repr

/-- An `OutOfRange` error: the space and the index (60_exceptions.md R250). It is a command's result, never latched
(60_exceptions.md R251). -/
structure OutOfRange where
  space : Space
  index : Int
deriving DecidableEq, Repr

/-- `MemRead(a, 1)` for any `a` (20_memory.md R60). -/
def State.memReadAt (s : State) (a : Int) : Except OutOfRange Byte :=
  if 0 ≤ a ∧ a ≤ 255 then .ok (s.memRead (BitVec.ofNat 8 a.toNat)) else .error ⟨.memory, a⟩

/-- `MemWrite(a, 1, v)` for any `a`; out of range nothing is written (20_memory.md R61). -/
def State.memWriteAt (s : State) (a : Int) (v : Byte) : Except OutOfRange State :=
  if 0 ≤ a ∧ a ≤ 255 then .ok (s.memWrite (BitVec.ofNat 8 a.toNat) v) else .error ⟨.memory, a⟩

/-! ## Registers (10_state.md R20) -/

/-- `x[r]`. -/
def State.readReg (s : State) (r : Reg) : Byte := s.regs[r.toNat]

/-- `x[r] <- v`. No register is hardwired. -/
def State.writeReg (s : State) (r : Reg) (v : Byte) : State := { s with regs := s.regs.set r.toNat v }

/-- A register read by any index (41_fetch_decode.md R160). -/
def State.readRegAt (s : State) (i : Int) : Except OutOfRange Byte :=
  if 0 ≤ i ∧ i ≤ 15 then .ok (s.readReg (BitVec.ofNat 4 i.toNat)) else .error ⟨.register, i⟩

/-- `pc <- target`. -/
def State.setPc (s : State) (target : Addr) : State := { s with pc := target }

/-! ## Fault entry and the clearing of a fault (60_exceptions.md R257, R259) -/

/-- The kind of a latched fault (60_exceptions.md R250). -/
def FaultRecord.kind : FaultRecord → ErrorKind
  | .memoryExhausted _ => .memoryExhausted
  | .programTooLarge _ => .programTooLarge
  | .unknownOpcode _ _ => .unknownOpcode
  | .malformedToken _ _ => .malformedToken

/-- The numeric codes of the error kinds (60_exceptions.md R250; 92_eei_decisions.md D11). -/
def ErrorKind.code : ErrorKind → Nat
  | .outOfRange => 1
  | .memoryExhausted => 2
  | .programTooLarge => 3
  | .unknownOpcode => 4
  | .fileUnavailable => 5
  | .malformedToken => 6

/-- Fault entry, the one way a fault is taken: `fault <- (kind, info)`, `fsm <- FAULTED`, and nothing else. There is no
vector, no saved state and no handler (60_exceptions.md R257). -/
def State.raise (s : State) (f : FaultRecord) : State := { s with fault := some f, fsm := .faulted }

/-- What the end of a successful load does: `fault <- none`, `fsm <- IDLE`, `cycles <- 0`. It is the only way out of
FAULTED; there is no return-from-fault instruction (60_exceptions.md R259; 70_reset_and_hazards.md R280, R284). -/
def State.clearFault (s : State) : State := { s with fault := none, fsm := .idle, cycles := 0 }

end Sys2Proof.Machine
end

