-- ==== Sys2Proof/Machine/Codec.lean ====
section
/-! DEFINITION. The numeric codec: pure functions on bytes (40_codec.md). -/

namespace Sys2Proof.Machine

/-! ## Integers (40_codec.md R121, R122) -/

/-- `decodeInt(b)`: two's complement, -128..127 (40_codec.md R121). -/
def decodeInt (b : Byte) : Int := if b.getLsbD 7 then (b.toNat : Int) - 256 else (b.toNat : Int)

/-- `encodeInt(n) = n mod 256`, for any integer (40_codec.md R122; 90_conflicts.md C4). -/
def encodeInt (n : Int) : Byte := BitVec.ofNat 8 (n % 256).toNat

/-! ## Exact fractions

The spec adds floats over exact rationals (40_codec.md R133; 92_eei_decisions.md D7). A rational is held as a numerator and
a positive denominator, not reduced, so that the machine's arithmetic is that of Int and Nat (assumption log 16,
DEDUCED, safe: no function below depends on which fraction of a rational it is given). -/

/-- The rational `num / den`; `den` is positive in every fraction the machine makes. -/
structure Frac where
  num : Int
  den : Nat
deriving DecidableEq, Repr

/-- The exact sum of two fractions. -/
def Frac.add (p q : Frac) : Frac := ⟨p.num * q.den + q.num * p.den, p.den * q.den⟩

/-! ## Floats: fields and decoding (40_codec.md R124, R125) -/

/-- The sign bit `s = b[7]`; true is negative (40_codec.md R124, D3). -/
def floatSign (b : Byte) : Bool := b.getLsbD 7
/-- The biased exponent `E = b[6:4]` (40_codec.md R124). -/
def floatExp (b : Byte) : Nat := (b.extractLsb' 4 3).toNat
/-- The fraction field `M = b[3:0]` (40_codec.md R124). -/
def floatFrac (b : Byte) : Nat := (b.extractLsb' 0 4).toNat

/-- `decodeFloat(b) = (-1)^s (1 + M/16) 2^(E-4)`, as the fraction `(-1)^s (16 + M) 2^E / 256` (40_codec.md R125; every value
is a multiple of 1/256, R126). -/
def decodeFloat (b : Byte) : Frac :=
  let a : Int := ((16 + floatFrac b) * 2 ^ floatExp b : Nat)
  ⟨if floatSign b then -a else a, 256⟩

/-! ## Floats: encoding (40_codec.md R127 to R130) -/

/-- A positive magnitude in the course of normalisation: the value is `num / den * 2^e`. -/
structure Norm where
  num : Nat
  den : Nat
  e : Int
deriving DecidableEq, Repr

/-- `while a >= 2: a <- a / 2; e <- e + 1` (40_codec.md R127), at most `fuel` times. -/
def Norm.halve : Nat → Norm → Norm
  | 0, a => a
  | fuel + 1, a => if 2 * a.den ≤ a.num then Norm.halve fuel ⟨a.num, 2 * a.den, a.e + 1⟩ else a

/-- `while a < 1: a <- a * 2; e <- e - 1` (40_codec.md R127), at most `fuel` times. -/
def Norm.double : Nat → Norm → Norm
  | 0, a => a
  | fuel + 1, a => if a.num < a.den then Norm.double fuel ⟨2 * a.num, a.den, a.e - 1⟩ else a

/-- The magnitude `num / den` brought into [1, 2): the two loops of 40_codec.md R127 in their order. The fuels are bounds
on the number of rounds: halving `log2 num` times or doubling `log2 den + 1` times is always enough. -/
def normalise (num den : Nat) : Norm :=
  Norm.double (Nat.log2 den + 1) (Norm.halve (Nat.log2 num) ⟨num, den, 0⟩)

/-- `M <- floor((a - 1) * 16)`, truncated, never rounded (40_codec.md R127, R129). -/
def Norm.fraction (a : Norm) : Nat := (a.num - a.den) * 16 / a.den

/-- `E <- (e + 4) mod 8`: the low three bits of the biased exponent, with no saturation (40_codec.md R128; 90_conflicts.md
C2; assumption log 18). -/
def Norm.exponent (a : Norm) : Nat := ((a.e + 4) % 8).toNat

/-- `encodeFloat(q)` for a nonzero `q` (40_codec.md R127). -/
def encodeNonzero (q : Frac) : Byte :=
  let a := normalise q.num.natAbs q.den
  BitVec.ofNat 8 ((if q.num < 0 then 128 else 0) + a.exponent * 16 + a.fraction)

/-- `encodeFloat(q)` under a setting of `FLOAT_ZERO_POLICY`; `none` when it never completes (40_codec.md R127, R130). -/
def encodeFloat (p : FloatZeroPolicy) (q : Frac) : Option Byte :=
  if q.num = 0 then
    match p with
    | .encode00 => some 0x00#8
    | .stuck => none
  else some (encodeNonzero q)

end Sys2Proof.Machine
end

