-- ==== Sys2Proof/Machine/Operands.lean ====
section
/-! DEFINITION. The operand forms of the instructions (30_encoding.md R92; 42_transfer.md R184): a register, the cell of an
absolute address, a literal byte, a rotate count and an absolute branch target. -/

namespace Sys2Proof.Machine

/-- The memory operand of opcode 1: the cell at the absolute address `xy` (30_encoding.md R92). -/
def State.loadOperand (s : State) (xy : Addr) : Byte := s.memRead xy

/-- The address to which opcode 3 stores: `xy` unchanged, with no register and no `pc` in it (30_encoding.md R92;
42_transfer.md R184). -/
def storeAddress (xy : Addr) : Addr := xy

/-- The register an instruction writes, if it writes one: the digit `r` of opcodes 1, 2 and 5 to A, and d3 of opcode 4
(30_encoding.md R91; 42_transfer.md R183). -/
def destinationReg : Instr → Option Reg
  | .loadm r _ => some r
  | .loadi r _ => some r
  | .store _ _ => none
  | .move _ _ d => some d
  | .addi r _ _ => some r
  | .addf r _ _ => some r
  | .or r _ _ => some r
  | .and r _ _ => some r
  | .xor r _ _ => some r
  | .ror r _ _ => some r
  | .jeq _ _ => none
  | .halt _ => none
  | .jlt _ _ => none

/-- The literal operand of opcode 2: the 8-bit pattern unchanged (30_encoding.md R92). -/
def literalOperand (xy : Byte) : Byte := xy

/-- The rotate count of opcode A: only its value modulo 8 matters (30_encoding.md R92; 43_alu.md R205). -/
def rotateCount (x : Digit) : Nat := x.toNat % 8

/-- The target of opcodes B and D: the absolute address `xy`, with no check (30_encoding.md R92; 44_control.md R233). -/
def branchTarget (xy : Addr) : Addr := xy

/-- A branch: to its target where the condition holds, else `pc` keeps what the fetch gave it (44_control.md R230, R232). -/
def State.branchIf (s : State) (cond : Bool) (xy : Addr) : State :=
  if cond then s.setPc (branchTarget xy) else s

end Sys2Proof.Machine
end

