-- ==== Sys2Proof/Machine/Flags.lean ====
section
/-! DEFINITION. The hardware has no condition codes (10_state.md R35), so no instruction computes a flag. What stands in
their place: the two comparisons of the branches, and the halt flag. -/

namespace Sys2Proof.Machine

/-- The condition of opcode B: `x[0]` and `x[r]` are the same 8-bit pattern (44_control.md R230). -/
def State.condEqual (s : State) (r : Reg) : Bool := s.readReg 0#4 == s.readReg r

/-- The condition of opcode D: `decodeInt(x[0]) < decodeInt(x[r])`, signed and strict (44_control.md R232). -/
def State.condLess (s : State) (r : Reg) : Bool := decide (decodeInt (s.readReg 0#4) < decodeInt (s.readReg r))

/-- `halt_flag <- 1` (44_control.md R231). -/
def State.setHalt (s : State) : State := { s with haltFlag := true }

/-- `halt_flag <- 0` (41_fetch_decode.md R162). -/
def State.clearHalt (s : State) : State := { s with haltFlag := false }

end Sys2Proof.Machine
end

