-- ==== Sys2Proof/Machine/Transfer.lean ====
section
/-! DEFINITION. Opcodes 1 to 4 (42_transfer.md). Each runs after the fetch has advanced `pc`. -/

namespace Sys2Proof.Machine

/-- LOADM: `x[r] <- MemRead(xy, 1)` (42_transfer.md R180). -/
def execLoadm (r : Reg) (xy : Addr) (s : State) : Host.Outcome State Fault Refusal :=
  .next (s.writeReg r (s.loadOperand xy))

/-- LOADI: `x[r] <- xy` (42_transfer.md R181). -/
def execLoadi (r : Reg) (xy : Byte) (s : State) : Host.Outcome State Fault Refusal :=
  .next (s.writeReg r (literalOperand xy))

/-- STORE: `MemWrite(xy, 1, x[r])`, which at cell 0 also appends to `out` (42_transfer.md R182). -/
def execStore (r : Reg) (xy : Addr) (s : State) : Host.Outcome State Fault Refusal :=
  .next (s.memWrite (storeAddress xy) (s.readReg r))

/-- MOVE: `x[d3] <- x[d2]`; the digit d1 has no effect (42_transfer.md R183; 30_encoding.md R95). -/
def execMove (_ign : Digit) (r d : Reg) (s : State) : Host.Outcome State Fault Refusal :=
  .next (s.writeReg d (s.readReg r))

end Sys2Proof.Machine
end

