-- ==== Sys2Proof/Machine/Alu.lean ====
section
/-! DEFINITION. Opcodes 5 to A (43_alu.md). Each runs after the fetch has advanced `pc`. -/

namespace Sys2Proof.Machine

/-! ## The ALU's functions on bytes -/

/-- `addInt(a, b)` (43_alu.md R200). -/
def addInt (a b : Byte) : Byte := encodeInt (decodeInt a + decodeInt b)

/-- `addFloat(a, b)` under a setting of `FLOAT_ZERO_POLICY`; `none` when it never completes (43_alu.md R201). -/
def addFloat (p : FloatZeroPolicy) (a b : Byte) : Option Byte :=
  encodeFloat p (Frac.add (decodeFloat a) (decodeFloat b))

/-- `rotateRight(v, n)` for `n` in 0..7: `((v >> n) | (v << (8 - n))) mod 256` (43_alu.md R205). -/
def rotateRight (v : Byte) (n : Nat) : Byte := (v >>> n) ||| (v <<< (8 - n))

/-- The shared form of opcodes 7, 8 and 9: both sources are read, then the destination is written (41_fetch_decode.md R153). -/
def State.writeBitwise (s : State) (f : Byte → Byte → Byte) (r a b : Reg) : State :=
  s.writeReg r (f (s.readReg a) (s.readReg b))

/-! ## The meanings -/

/-- ADDI (43_alu.md R200). -/
def execAddi (r a b : Reg) (s : State) : Host.Outcome State Fault Refusal :=
  .next (s.writeReg r (addInt (s.readReg a) (s.readReg b)))

/-- ADDF (43_alu.md R201). Under `STUCK` an exact zero sum has no next step (40_codec.md R130). -/
def execAddf (r a b : Reg) (s : State) : Host.Outcome State Fault Refusal :=
  match addFloat s.floatZeroPolicy (s.readReg a) (s.readReg b) with
  | some v => .next (s.writeReg r v)
  | none => .fault .floatZeroStuck

/-- OR (43_alu.md R202). -/
def execOr (r a b : Reg) (s : State) : Host.Outcome State Fault Refusal :=
  .next (s.writeBitwise (fun u v => u ||| v) r a b)

/-- AND (43_alu.md R203). -/
def execAnd (r a b : Reg) (s : State) : Host.Outcome State Fault Refusal :=
  .next (s.writeBitwise (fun u v => u &&& v) r a b)

/-- XOR (43_alu.md R204). -/
def execXor (r a b : Reg) (s : State) : Host.Outcome State Fault Refusal :=
  .next (s.writeBitwise (fun u v => u ^^^ v) r a b)

/-- ROR: `x[r]` rotated in place; the digit d2 has no effect (43_alu.md R205; 30_encoding.md R95). -/
def execRor (r : Reg) (_ign : Digit) (x : Digit) (s : State) : Host.Outcome State Fault Refusal :=
  .next (s.writeReg r (rotateRight (s.readReg r) (rotateCount x)))

end Sys2Proof.Machine
end

