-- ==== Sys2Proof/Machine/Control.lean ====
section
/-! DEFINITION. Opcodes B, C and D (44_control.md). Each runs after the fetch has advanced `pc`. -/

namespace Sys2Proof.Machine

/-- JEQ: `if x[0] = x[r]: pc <- xy` (44_control.md R230). -/
def execJeq (r : Reg) (xy : Addr) (s : State) : Host.Outcome State Fault Refusal :=
  .next (s.branchIf (s.condEqual r) xy)

/-- HALT: `halt_flag <- 1`; the digits d1..d3 have no effect (44_control.md R231; 30_encoding.md R95). The FSM observes and
clears the flag at the end of the cycle (`State.closeCycle`). -/
def execHalt (_ign : BitVec 12) (s : State) : Host.Outcome State Fault Refusal :=
  .next s.setHalt

/-- JLT: `if decodeInt(x[0]) < decodeInt(x[r]): pc <- xy` (44_control.md R232). -/
def execJlt (r : Reg) (xy : Addr) (s : State) : Host.Outcome State Fault Refusal :=
  .next (s.branchIf (s.condLess r) xy)

end Sys2Proof.Machine
end

