-- ==== Sys2Proof/Machine/Dispatch.lean ====
section
/-! DEFINITION. `execute(ir)`'s dispatch: one arm per instruction (41_fetch_decode.md R152). -/

namespace Sys2Proof.Machine

def exec (i : Instr) (s : State) : Host.Outcome State Fault Refusal :=
  match i with
  | .loadm r xy => Sys2Proof.Machine.execLoadm r xy s
  | .loadi r xy => Sys2Proof.Machine.execLoadi r xy s
  | .store r xy => Sys2Proof.Machine.execStore r xy s
  | .move g r d => Sys2Proof.Machine.execMove g r d s
  | .addi r a b => Sys2Proof.Machine.execAddi r a b s
  | .addf r a b => Sys2Proof.Machine.execAddf r a b s
  | .or r a b => Sys2Proof.Machine.execOr r a b s
  | .and r a b => Sys2Proof.Machine.execAnd r a b s
  | .xor r a b => Sys2Proof.Machine.execXor r a b s
  | .ror r g x => Sys2Proof.Machine.execRor r g x s
  | .jeq r xy => Sys2Proof.Machine.execJeq r xy s
  | .halt g => Sys2Proof.Machine.execHalt g s
  | .jlt r xy => Sys2Proof.Machine.execJlt r xy s

end Sys2Proof.Machine
end

