-- ==== Sys2Proof/Machine/Cycle.lean ====
section
/-! DEFINITION. Fetch, decode and execute, the end of a cycle, and the control FSM (41_fetch_decode.md R150 to R155, R162). -/

namespace Sys2Proof.Machine

/-- How a cycle ends: CONTINUE, HALTED or FAULT(kind) (41_fetch_decode.md R154). -/
inductive CycleOutcome where
  | continue
  | halted
  | fault (kind : ErrorKind)
deriving DecidableEq, Repr

/-- What a cycle or a command answers: a result and the state afterwards; or, for `STUCK`, no completion. -/
abbrev Answer (α : Type) := Host.Outcome (α × State) Fault Refusal

/-! ## Fetch (41_fetch_decode.md R151) -/

/-- The start of a cycle: IDLE to FETCH (41_fetch_decode.md R155). -/
def State.beginCycle (s : State) : State := { s with fsm := .fetch }

/-- The fetch would leave `pc` above 255: it is not performed (41_fetch_decode.md R151; 90_conflicts.md C8). -/
def State.fetchExhausted (s : State) : Bool := decide (255 < s.pc.toNat + 2)

/-- A fetch that is performed: `ir <- MemRead(pc, 2)`, `pc <- pc + 2`, and FETCH to EXECUTE (41_fetch_decode.md R151, R155). -/
def State.fetched (s : State) : State := { s with ir := s.memRead2 s.pc, pc := s.pc + 2#8, fsm := .execute }

/-- `raise MemoryExhausted(pc)`: checked first, so nothing is read and `pc` is unchanged (41_fetch_decode.md R151). -/
def State.raiseExhausted (s : State) : State := s.raise (.memoryExhausted s.pc)

/-- `raise UnknownOpcode(ir, pc - 2)`: the fetch has already advanced `pc` (41_fetch_decode.md R152). -/
def State.raiseUnknown (s : State) : State := s.raise (.unknownOpcode s.ir (s.pc - 2#8))

/-! ## The end of a cycle (41_fetch_decode.md R154, R162) -/

/-- The FSM observes the halt flag, clears it, and is IDLE (41_fetch_decode.md R162; assumption log 20). -/
def State.closeCycle (s : State) : CycleOutcome × State :=
  (if s.haltFlag then .halted else .continue, { s.clearHalt with fsm := .idle })

/-- The end of a cycle after the instruction's own effect. -/
def closeOutcome : Host.Outcome State Fault Refusal → Answer CycleOutcome
  | .next t => .next t.closeCycle
  | .fault r => .fault r
  | .refused r => .refused r

/-! ## The phases and the cycle (41_fetch_decode.md R150, R152, R155) -/

/-- Decode and execute the word in `ir` (41_fetch_decode.md R152). -/
def executePhase (s : State) : Answer CycleOutcome :=
  match decodeWord s.ir with
  | .ok i => closeOutcome (exec i s)
  | .error _ => .next (.fault .unknownOpcode, s.raiseUnknown)

/-- Fetch, then decode and execute (41_fetch_decode.md R150, R151). -/
def fetchPhase (s : State) : Answer CycleOutcome :=
  if s.fetchExhausted then .next (.fault .memoryExhausted, s.raiseExhausted) else executePhase s.fetched

/-- One cycle, with its outcome: from IDLE all of it; from FETCH or EXECUTE, where no command ever starts, the rest of it
(assumption log 7); in FAULTED it is refused (41_fetch_decode.md R150, R155, R156). -/
def runCycle (s : State) : Answer CycleOutcome :=
  match s.fsm with
  | .idle => fetchPhase s.beginCycle
  | .fetch => fetchPhase s
  | .execute => executePhase s
  | .faulted => .refused .faultLatched

/-- ONE transition of the FSM, row by row of the table of 41_fetch_decode.md R155; `none` is a transition inside a cycle,
`some` the outcome of a cycle that has ended. `runCycle` makes these transitions one after another. -/
def fsmTransition (s : State) : Answer (Option CycleOutcome) :=
  match s.fsm with
  | .idle => .next (none, s.beginCycle)
  | .fetch =>
    if s.fetchExhausted then .next (some (.fault .memoryExhausted), s.raiseExhausted) else .next (none, s.fetched)
  | .execute =>
    match executePhase s with
    | .next (o, t) => .next (some o, t)
    | .fault r => .fault r
    | .refused r => .refused r
  | .faulted => .refused .faultLatched

/-- The state a cycle leaves, without its outcome. -/
def stateOf : Answer CycleOutcome → Host.Outcome State Fault Refusal
  | .next (_, t) => .next t
  | .fault r => .fault r
  | .refused r => .refused r

/-! ## Placing an instruction where the next cycle fetches it -/

/-- Where the next fetch can read: `pc`, or the default load address where a fetch at `pc` is impossible (assumption log 11). -/
def State.fetchAddr (s : State) : Addr := if s.fetchExhausted then Config.defaultLoadAddr else s.pc

/-- `s` with the word `w` in the two cells the next cycle fetches, ready to run: what a load of that word does for the fetch,
without emptying registers, memory or `out` (assumption logs 10 and 11). -/
def State.placeFetchWord (s : State) (w : Word) : State :=
  { (s.setCell s.fetchAddr (highByte w)).setCell (s.fetchAddr + 1#8) (lowByte w) with
    pc := s.fetchAddr, fault := none, fsm := .idle }

end Sys2Proof.Machine
end

