-- ==== Sys2Proof/Machine/Step.lean ====
section
/-! DEFINITION. The step function: one cycle of the machine, `runOneCycle()` without its result value (assumption log 4). -/

namespace Sys2Proof.Machine

/-- One cycle: one fetch and one decode-and-execute (41_fetch_decode.md R150, R156). -/
def step (s : State) : Host.Outcome State Fault Refusal := stateOf (runCycle s)

/-- `s` with the instruction word of an opcode-table row placed where `step` fetches next (assumption log 11). -/
def State.withFetchWord (s : State) (nbits w : Nat) : State := s.placeFetchWord (tableWord nbits w)

end Sys2Proof.Machine
end

