-- ==== Sys2Proof/Machine/Text.lean ====
section
/-! DEFINITION. Text: hex digits and hex text (00_scope.md R12, 40_codec.md R120), program text (30_encoding.md R97,
70_reset_and_hazards.md R282), the two renderings of the output stream (20_memory.md R62), and the mnemonic spelling of an
instruction (30_encoding.md R98). -/

namespace Sys2Proof.Machine

/-! ## Hex digits (40_codec.md R120) -/

/-- The nibble-to-digit map: 0..9 to `0`..`9`, 10..15 to `A`..`F` (40_codec.md R120). -/
def hexDigit (d : Digit) : Char := if d.toNat < 10 then Char.ofNat (48 + d.toNat) else Char.ofNat (55 + d.toNat)

/-- The hex-digit-to-nibble map, on uppercase digits only (40_codec.md R120). -/
def hexValue (c : Char) : Option Digit :=
  if 48 ≤ c.toNat ∧ c.toNat ≤ 57 then some (BitVec.ofNat 4 (c.toNat - 48))
  else if 65 ≤ c.toNat ∧ c.toNat ≤ 70 then some (BitVec.ofNat 4 (c.toNat - 55))
  else none

/-- The two uppercase hex digits of a byte, the high one first (40_codec.md R120). -/
def hexText (b : Byte) : List Char := [hexDigit (b.extractLsb' 4 4), hexDigit (b.extractLsb' 0 4)]

/-- The four uppercase hex digits of a word, a program token (30_encoding.md R97). -/
def wordText (w : Word) : List Char := hexText (highByte w) ++ hexText (lowByte w)

/-! ## Program text (30_encoding.md R97; 70_reset_and_hazards.md R281, R282) -/

/-- Whitespace: space, tab, line feed, vertical tab, form feed, carriage return (70_reset_and_hazards.md R282). -/
def isSpace (c : Char) : Bool := c.toNat == 32 || (9 ≤ c.toNat && c.toNat ≤ 13)

/-- The uppercase of a letter `a`..`z`; any other character is itself (70_reset_and_hazards.md R282; assumption log 12). -/
def upperChar (c : Char) : Char := if 97 ≤ c.toNat ∧ c.toNat ≤ 122 then Char.ofNat (c.toNat - 32) else c

/-- The tokens of a text whose current token so far is `cur`, its last character first. -/
def tokensFrom : List Char → List Char → List (List Char)
  | [], cur => if cur.isEmpty then [] else [cur.reverse]
  | c :: cs, cur =>
    if isSpace c then
      if cur.isEmpty then tokensFrom cs [] else cur.reverse :: tokensFrom cs []
    else tokensFrom cs (c :: cur)

/-- The tokens of a program source: its maximal runs of non-whitespace characters (70_reset_and_hazards.md R282). -/
def tokens (source : List Char) : List (List Char) := tokensFrom source []

/-- The word of a token that is exactly 4 characters of `0-9A-F` (70_reset_and_hazards.md R280, R282). -/
def parseWord : List Char → Option Word
  | [c0, c1, c2, c3] =>
    match hexValue c0, hexValue c1, hexValue c2, hexValue c3 with
    | some d0, some d1, some d2, some d3 => some (d0 ++ d1 ++ d2 ++ d3)
    | _, _, _, _ => none
  | _ => none

/-- The start address that is exactly 2 characters of `0-9A-F`; it is not uppercased here (70_reset_and_hazards.md R281, R282). -/
def parseStart : List Char → Option Addr
  | [c0, c1] =>
    match hexValue c0, hexValue c1 with
    | some d0, some d1 => some (d0 ++ d1)
    | _, _ => none
  | _ => none

/-! ## The renderings of `out` (20_memory.md R62) -/

/-- The character of a byte: the ASCII character below 0x80; above, the display layer's own (20_memory.md R62; assumption log 14). -/
def displayText (b : Byte) : Char := if b.toNat < 128 then Char.ofNat b.toNat else Config.displayChar b

/-- The human-readable stream (screen ASCII): one character per byte (20_memory.md R62). -/
def renderAscii (out : List Byte) : List Char := out.map displayText

/-- The raw-hex stream (screen hex): for each byte its hex text and one space (20_memory.md R62). -/
def renderHex (out : List Byte) : List Char := out.flatMap (fun b => hexText b ++ [' '])

/-! ## Mnemonic spelling (30_encoding.md R98) -/

/-- `R0`..`R9`, `RA`..`RF` (30_encoding.md R98; 10_state.md R20). -/
def regText (r : Reg) : List Char := ['R', hexDigit r]
/-- An 8-bit operand, `0xXY` (30_encoding.md R98). -/
def byteText (b : Byte) : List Char := '0' :: 'x' :: hexText b
/-- A memory operand, `[0xXY]` (30_encoding.md R98). -/
def cellText (a : Addr) : List Char := ['['] ++ byteText a ++ [']']
/-- The separator of operands. -/
def commaText : List Char := [',', ' ']

/-- A rotate count, of the two spellings R98 allows the hex one, `0xX` (assumption log 17). -/
def countText (x : Digit) : List Char := ['0', 'x', hexDigit x]

/-- Three register operands. -/
def threeRegs (r a b : Reg) : List Char := regText r ++ commaText ++ regText a ++ commaText ++ regText b

/-- What a disassembler prints: ignored digits are lost (30_encoding.md R98). The spec does not say which of two spellings of
a word is printed (R98, R99): the model prints the base mnemonic, `JEQ R0, 0xXY` and `MOVE R0, R0`, and never `JMP` or `NOP`
(assumption log 17, DESIGN CHOICE). -/
def disassemble : Instr → List Char
  | .loadm r xy => "LOADM ".toList ++ regText r ++ commaText ++ cellText xy
  | .loadi r xy => "LOADI ".toList ++ regText r ++ commaText ++ byteText xy
  | .store r xy => "STORE ".toList ++ regText r ++ commaText ++ cellText xy
  | .move _ r d => "MOVE ".toList ++ regText r ++ commaText ++ regText d
  | .addi r a b => "ADDI ".toList ++ threeRegs r a b
  | .addf r a b => "ADDF ".toList ++ threeRegs r a b
  | .or r a b => "OR ".toList ++ threeRegs r a b
  | .and r a b => "AND ".toList ++ threeRegs r a b
  | .xor r a b => "XOR ".toList ++ threeRegs r a b
  | .ror r _ x => "ROR ".toList ++ regText r ++ commaText ++ countText x
  | .jeq r xy => "JEQ ".toList ++ regText r ++ commaText ++ byteText xy
  | .halt _ => "HALT".toList
  | .jlt r xy => "JLT ".toList ++ regText r ++ commaText ++ byteText xy

end Sys2Proof.Machine
end

