-- ==== Sys2Proof/Machine/Loader.lean ====
section
/-! DEFINITION. `loadProgram(source, start)`, the reset and the load (70_reset_and_hazards.md R280 to R284). -/

namespace Sys2Proof.Machine

/-- How a load ends. -/
inductive LoadResult where
  | loaded
  | fault (kind : ErrorKind)
deriving DecidableEq, Repr

/-- The steps of `loadProgram` before the first token: registers and cells 0x00, `out` empty, `pc` the start address,
`halt_flag` 0 (70_reset_and_hazards.md R280; 20_memory.md R63). -/
def State.resetForLoad (s : State) (start : Addr) : State :=
  { s with
    regs := Vector.replicate 16 0x00#8, mem := [], out := [], pc := start, haltFlag := false }

/-- One word written as two cells at load address `a`, the high byte first, through the one write path (70_reset_and_hazards.md R280). -/
def State.loadWord (s : State) (a : Addr) (w : Word) : State :=
  (s.memWrite a (highByte w)).memWrite (a + 1#8) (lowByte w)

/-- A failing load: the fault is latched, and what was written before stays (60_exceptions.md R257; 70_reset_and_hazards.md R283). -/
def State.failLoad (s : State) (f : FaultRecord) : LoadResult × State := (.fault f.kind, s.raise f)

/-- The loop of `loadProgram` over the tokens, the next one having index `n` and load address `a`; a token's format is
checked before its room (70_reset_and_hazards.md R280, R282, R283). -/
def State.loadTokens : List (List Char) → Nat → Nat → State → LoadResult × State
  | [], _, _, s => (.loaded, s.clearFault)
  | tk :: tks, n, a, s =>
    match parseWord (tk.map upperChar) with
    | none => s.failLoad (.malformedToken (.token n) (tk.map upperChar))
    | some w =>
      if 255 < a + 1 then s.failLoad (.programTooLarge a)
      else State.loadTokens tks (n + 1) (a + 2) (s.loadWord (BitVec.ofNat 8 a) w)

/-- The start address text when the host gives none: `"10"` (70_reset_and_hazards.md R281). -/
def defaultStartText : List Char := hexText Config.defaultLoadAddr

/-- `loadProgram(source, start)` (70_reset_and_hazards.md R280). -/
def State.loadProgram (s : State) (source : List Char) (start : List Char) : LoadResult × State :=
  match parseStart start with
  | none => s.failLoad (.malformedToken .start start)
  | some a => State.loadTokens (tokens source) 0 a.toNat (s.resetForLoad a)

end Sys2Proof.Machine
end

