-- ==== Sys2Proof/Machine/HostCommands.lean ====
section
/-! DEFINITION. The host's commands, each an atomic transaction with a result (41_fetch_decode.md R156 to R161;
00_scope.md R7). -/

namespace Sys2Proof.Machine

/-! ## Running (41_fetch_decode.md R156, R157) -/

/-- The result of `runOneCycle()`: a cycle's outcome, or REFUSED (41_fetch_decode.md R156). -/
inductive StepResult where
  | done (o : CycleOutcome)
  | refused
deriving DecidableEq, Repr

/-- `runOneCycle()` (41_fetch_decode.md R156). -/
def runOneCycle (s : State) : Answer StepResult :=
  if s.fsm = .faulted then .next (.refused, s)
  else
    match runCycle s with
    | .next (o, t) => .next (.done o, t)
    | .fault r => .fault r
    | .refused r => .refused r

/-- The result of `runUntilHaltOrLimit(maxCycles)`, with the number of cycles it executed (41_fetch_decode.md R157). -/
inductive RunResult where
  | halted (cycles : Nat)
  | fault (kind : ErrorKind) (cycles : Nat)
  | limit (cycles : Nat)
  | refused
deriving DecidableEq, Repr

/-- `cycles <- cycles + 1`: the halting or faulting cycle counts (41_fetch_decode.md R157). -/
def State.countCycle (s : State) : State := { s with cycles := s.cycles + 1 }

/-- The loop of `run` with at most `left` cycles left (41_fetch_decode.md R157). -/
def runLoop : Nat → State → Answer RunResult
  | 0, s => .next (.limit s.cycles, s)
  | left + 1, s =>
    match runCycle s with
    | .next (.continue, t) => runLoop left t.countCycle
    | .next (.halted, t) => .next (.halted t.countCycle.cycles, t.countCycle)
    | .next (.fault k, t) => .next (.fault k t.countCycle.cycles, t.countCycle)
    | .fault r => .fault r
    | .refused r => .refused r

/-- `runUntilHaltOrLimit(maxCycles)` (41_fetch_decode.md R157). Under `STUCK` it may never end (70_reset_and_hazards.md R289):
then the answer is that fault. -/
def runUntilHaltOrLimit (maxCycles : Nat) (s : State) : Answer RunResult :=
  if s.fsm = .faulted then .next (.refused, s) else runLoop maxCycles { s with cycles := 0 }

/-! ## `setProgramCounter`, `snapshot` and `get` (41_fetch_decode.md R158, R159, R160) -/

/-- `setProgramCounter(addr)`, in any FSM state (41_fetch_decode.md R158). -/
def State.setProgramCounter (s : State) (addr : Int) : Except OutOfRange State :=
  if 0 ≤ addr ∧ addr ≤ 255 then .ok (s.setPc (BitVec.ofNat 8 addr.toNat)) else .error ⟨.pc, addr⟩

/-- What `snapshot()` returns (41_fetch_decode.md R159). -/
structure Snapshot where
  registers : List Byte
  cells : List Byte
  out : List Byte
  ascii : List Char
  hex : List Char
  pc : Addr
  fault : Option FaultRecord
deriving DecidableEq, Repr

/-- `snapshot()` (41_fetch_decode.md R159). -/
def State.snapshot (s : State) : Snapshot where
  registers := s.regs.toList
  cells := Memory.cells s.mem
  out := s.out
  ascii := renderAscii s.out
  hex := renderHex s.out
  pc := s.pc
  fault := s.fault

/-! ## The commands together -/

/-- The host's commands; an argument the host may leave out is an Option (00_scope.md R4; 41_fetch_decode.md §3). -/
inductive HostCommand where
  | loadProgram (source : List Char) (start : Option (List Char))
  | setProgramCounter (addr : Int)
  | runOneCycle
  | runUntilHaltOrLimit (maxCycles : Option Nat)
  | snapshot
  | getRegister (index : Int)
  | getMemory (index : Int)
deriving DecidableEq, Repr

/-- A command's result. -/
inductive Reply where
  | load (r : LoadResult)
  | pcSet
  | cycle (r : StepResult)
  | run (r : RunResult)
  | view (v : Snapshot)
  | byte (b : Byte)
  | outOfRange (e : OutOfRange)
deriving DecidableEq, Repr

/-- An answer with its result put in a Reply. -/
def Answer.reply {α : Type} (f : α → Reply) : Answer α → Answer Reply
  | .next (r, t) => .next (f r, t)
  | .fault r => .fault r
  | .refused r => .refused r

/-- The result of `get(index)`: no state changes, and an error is not latched (41_fetch_decode.md R160; 60_exceptions.md R251). -/
def State.getReply (s : State) : Except OutOfRange Byte → Answer Reply
  | .ok b => .next (.byte b, s)
  | .error e => .next (.outOfRange e, s)

/-- One host command (00_scope.md R4, R7). No command is refused by the model: REFUSED is a result
(41_fetch_decode.md R156, R161). -/
def hostCommand : HostCommand → State → Answer Reply
  | .loadProgram source start, s =>
    .next (.load (s.loadProgram source (start.getD defaultStartText)).1, (s.loadProgram source (start.getD defaultStartText)).2)
  | .setProgramCounter addr, s =>
    match s.setProgramCounter addr with
    | .ok t => .next (.pcSet, t)
    | .error e => .next (.outOfRange e, s)
  | .runOneCycle, s => Answer.reply .cycle (runOneCycle s)
  | .runUntilHaltOrLimit maxCycles, s =>
    Answer.reply .run (runUntilHaltOrLimit (maxCycles.getD Config.defaultMaxCycles) s)
  | .snapshot, s => .next (.view s.snapshot, s)
  | .getRegister i, s => s.getReply (s.readRegAt i)
  | .getMemory a, s => s.getReply (s.memReadAt a)

end Sys2Proof.Machine
end

