-- ==== Sys2Proof/Safety.lean ====
section
/-! DEFINITION. The terms in which claims are made: what holds between commands and which states can be reached, what an
instruction leaves alone, the rational value of a float byte, and the image a load leaves in memory. -/

namespace Sys2Proof.Machine

/-- The info of a latched fault is what 60_exceptions.md R250 records for its kind. -/
def FaultRecord.consistent : FaultRecord → Bool
  | .memoryExhausted pc => 253 < pc.toNat
  | .programTooLarge a => 255 ≤ a && a ≤ 256
  | .unknownOpcode w a => !wordLegal w && a.toNat ≤ 253
  | .malformedToken .start text => (parseStart text).isNone
  | .malformedToken (.token _) text => (parseWord text).isNone

/-- What holds between host commands: the memory is in its canonical form; `halt_flag` reads 0 (10_state.md R29); the FSM
is IDLE or FAULTED, and FAULTED exactly when a fault is latched (10_state.md R30, R33); and a latched fault holds the info
of its kind (60_exceptions.md R250). -/
structure State.Inv (s : State) : Prop where
  memCanonical : Memory.wf s.mem = true
  haltClear : s.haltFlag = false
  atBoundary : s.fsm = .idle ∨ s.fsm = .faulted
  latchedIffFaulted : s.fsm = .faulted ↔ s.fault ≠ none
  infoConsistent : ∀ f, s.fault = some f → f.consistent = true

/-- The states the host can bring the machine to from power-on, by any sequence of commands that complete. -/
inductive State.Reachable : State → Prop where
  | reset : State.Reachable State.reset
  | command (c : HostCommand) (s t : State) (r : Reply) :
      State.Reachable s → hostCommand c s = .next (r, t) → State.Reachable t

/-- A step is safe when it completes and latches no fault: the machine can go on. -/
def SafeStep (s : State) : Prop := ∃ t, step s = .next t ∧ t.fault = none

/-! ## Frames -/

/-- From `s` to `t`, nothing but register `d` may differ. -/
structure OnlyReg (s t : State) (d : Reg) : Prop where
  regs : ∀ q, q ≠ d → t.readReg q = s.readReg q
  pc : t.pc = s.pc
  cells : ∀ a, t.memRead a = s.memRead a
  out : t.out = s.out
  haltFlag : t.haltFlag = s.haltFlag
  fault : t.fault = s.fault
  fsm : t.fsm = s.fsm
  ir : t.ir = s.ir
  cycles : t.cycles = s.cycles
  floatZeroPolicy : t.floatZeroPolicy = s.floatZeroPolicy

/-- From `s` to `t`, nothing but cell `d` and the output stream may differ. -/
structure OnlyCellAndOut (s t : State) (d : Addr) : Prop where
  regs : ∀ q, t.readReg q = s.readReg q
  pc : t.pc = s.pc
  cells : ∀ a, a ≠ d → t.memRead a = s.memRead a
  haltFlag : t.haltFlag = s.haltFlag
  fault : t.fault = s.fault
  fsm : t.fsm = s.fsm
  ir : t.ir = s.ir
  cycles : t.cycles = s.cycles
  floatZeroPolicy : t.floatZeroPolicy = s.floatZeroPolicy

/-- From `s` to `t`, nothing but `pc` may differ. -/
structure OnlyPc (s t : State) : Prop where
  regs : ∀ q, t.readReg q = s.readReg q
  cells : ∀ a, t.memRead a = s.memRead a
  out : t.out = s.out
  haltFlag : t.haltFlag = s.haltFlag
  fault : t.fault = s.fault
  fsm : t.fsm = s.fsm
  ir : t.ir = s.ir
  cycles : t.cycles = s.cycles
  floatZeroPolicy : t.floatZeroPolicy = s.floatZeroPolicy

/-- `t` is `s` in everything a program reads or writes but `pc`: registers, cells and the output stream. -/
structure SameData (s t : State) : Prop where
  regs : ∀ q, t.readReg q = s.readReg q
  cells : ∀ a, t.memRead a = s.memRead a
  out : t.out = s.out

/-! ## Floats as rationals (40_codec.md R125, R127) -/

/-- The rational a fraction stands for. -/
def Frac.value (q : Frac) : ℚ := (q.num : ℚ) / (q.den : ℚ)

/-- The value of a float byte, as 40_codec.md R125 writes it: `(-1)^s (1 + M/16) 2^(E - 4)`. -/
def floatValue (b : Byte) : ℚ :=
  (if floatSign b then -1 else 1) * (1 + (floatFrac b : ℚ) / 16) * (2 : ℚ) ^ ((floatExp b : ℤ) - 4)

/-- `b` is the encoding of the nonzero rational `q`, by its fields and not by loops (40_codec.md R127 to R129): with
`e = floor(log2 |q|)`, the sign is that of `q`, `E = (e + 4) mod 8`, and `M = floor((|q| / 2^e - 1) * 16)`. -/
def IsFloatEncoding (q : ℚ) (b : Byte) : Prop :=
  ∃ e : ℤ, (2 : ℚ) ^ e ≤ |q| ∧ |q| < (2 : ℚ) ^ (e + 1) ∧
    (floatSign b = true ↔ q < 0) ∧
    ((floatExp b : ℤ) = (e + 4) % 8) ∧
    ((floatFrac b : ℤ) = ⌊(|q| / (2 : ℚ) ^ e - 1) * 16⌋)

/-! ## What a load leaves in memory (70_reset_and_hazards.md R280, R283) -/

/-- The byte of cell `c` after the words `ws` were loaded from address `a` on into cleared memory. -/
def imageByte (a : Nat) (ws : List Word) (c : Nat) : Byte :=
  if c < a then 0x00#8
  else
    match ws[(c - a) / 2]? with
    | none => 0x00#8
    | some w => if (c - a) % 2 = 0 then highByte w else lowByte w

/-- `t` is what `s` becomes when exactly the words `ws` have been loaded from `a` on, apart from `fault`, `fsm`, `cycles`
and the unspecified `ir` (10_state.md R38; 70_reset_and_hazards.md R280). -/
structure Loaded (s t : State) (a : Addr) (ws : List Word) : Prop where
  regs : ∀ q, t.readReg q = 0x00#8
  cells : ∀ c : Addr, t.memRead c = imageByte a.toNat ws c.toNat
  out : t.out = if a = 0x00#8 then (ws.head?.map highByte).toList else []
  pc : t.pc = a
  haltFlag : t.haltFlag = false
  floatZeroPolicy : t.floatZeroPolicy = s.floatZeroPolicy

/-- The words that a list of tokens spells, in either case of letter; `none` if a token is malformed
(70_reset_and_hazards.md R282). -/
def tokenWords (tks : List (List Char)) : Option (List Word) := tks.mapM (fun tk => parseWord (tk.map upperChar))

end Sys2Proof.Machine
end

