-- ==== Sys2Proof/Certificates/Slice0/Obligations.lean ====
section
/-! DEFINITION. The statements about the machine, from the spec's numbered rules. -/

open Sys2Proof Sys2Proof.Machine

/-! ## Encoding (30_encoding.md) -/

/-- Decoding an encoded instruction gives it back with every operand and every ignored digit, from the word and from the
bytes as memory holds them (30_encoding.md R90 to R93). -/
def Obligations.EncodedInstructionsDecodeBack : Prop :=
  ∀ (i : Instr) (rest : List Byte),
    decodeWord (encode i) = .ok i ∧ decodeBytes (encodeBytes i ++ rest) = .ok (i, rest)

/-- A word that decodes to an instruction is that instruction's encoding: decoding drops no bit. That the ignored digits of
opcodes 4, A and C are kept in the decoded instruction is the model's choice (assumption log 19, DESIGN CHOICE). -/
def Obligations.DecodedWordsEncodeBack : Prop :=
  ∀ (w : Word) (i : Instr), decodeWord w = .ok i → encode i = w

/-- 30_encoding.md R96, which the spec infers from R93 and R95: for opcode k a word is that instruction exactly when
`w & 0xF000 = k << 12`; no other word is one. -/
def Obligations.MaskSelectsTheInstruction : Prop :=
  ∀ (w : Word) (k : Digit),
    (∃ i, decodeWord w = .ok i ∧ i.opcode = k) ↔ (1 ≤ k.toNat ∧ k.toNat ≤ 13 ∧ w &&& 0xF000#16 = (k ++ 0#12 : Word))

/-- 30_encoding.md R95: every word with d0 in 1..D is an instruction; a word of opcode 4, A or C is one for every value of
its ignored digits; and an instruction behaves the same for all values of them. -/
def Obligations.IgnoredDigitsHaveNoEffect : Prop :=
  (∀ w : Word, 1 ≤ (digit0 w).toNat → (digit0 w).toNat ≤ 13 → ∃ i, decodeWord w = .ok i) ∧
  (∀ g r d : Digit, decodeWord (0x4#4 ++ (g ++ r ++ d : BitVec 12) : Word) = .ok (.move g r d)) ∧
  (∀ r g x : Digit, decodeWord (0xA#4 ++ (r ++ g ++ x : BitVec 12) : Word) = .ok (.ror r g x)) ∧
  (∀ g : BitVec 12, decodeWord (0xC#4 ++ g : Word) = .ok (.halt g)) ∧
  (∀ g g' r d s, exec (.move g r d) s = exec (.move g' r d) s) ∧
  (∀ r g g' x s, exec (.ror r g x) s = exec (.ror r g' x) s) ∧
  (∀ g g' s, exec (.halt g) s = exec (.halt g') s)

/-- 30_encoding.md R100 (the spec's inference from R98 and R99) and 95_test_vectors.md: the worked encodings, at least one
of each family and all five formats. -/
def Obligations.WorkedEncodingsDecode : Prop :=
  decodeWord 0x2012#16 = .ok (.loadi 0x0#4 0x12#8) ∧ decodeWord 0x3300#16 = .ok (.store 0x3#4 0x00#8) ∧
  decodeWord 0xB018#16 = .ok (Instr.jmp 0x18#8) ∧ decodeWord 0xA203#16 = .ok (.ror 0x2#4 0x0#4 0x3#4) ∧
  decodeWord 0xC000#16 = .ok (.halt 0x000#12) ∧ decodeWord 0x4F12#16 = .ok (.move 0xF#4 0x1#4 0x2#4) ∧
  decodeWord 0x6312#16 = .ok (.addf 0x3#4 0x1#4 0x2#4) ∧ decodeWord 0xD31E#16 = .ok (.jlt 0x3#4 0x1E#8) ∧
  decodeWord 0x4000#16 = .ok Instr.nop ∧ decodeWord 0xE123#16 = .error (.unknownOpcode 0xE123#16)

/-- 30_encoding.md R99: `JMP` always branches, and `NOP` changes nothing. -/
def Obligations.PseudoInstructionsWork : Prop :=
  (∀ xy s, encode (Instr.jmp xy) = (0xB#4 ++ (0x0#4 ++ xy : BitVec 12) : Word) ∧ exec (Instr.jmp xy) s = .next (s.setPc xy)) ∧
  (encode Instr.nop = 0x4000#16 ∧ ∀ s, exec Instr.nop s = .next s)

/-! ## The instructions (42_transfer.md, 43_alu.md, 44_control.md)

Each statement gives the encoding, that the instruction completes from every state, its result, and its frame. -/

/-- 42_transfer.md R180. -/
def Obligations.LoadmLoadsTheCell : Prop :=
  (∀ w : Word, w &&& 0xF000#16 = 0x1000#16 → decodeWord w = .ok (.loadm (w.extractLsb' 8 4) (w.extractLsb' 0 8))) ∧
  ∀ r xy s, ∃ t, exec (.loadm r xy) s = .next t ∧ t.readReg r = s.memRead xy ∧ OnlyReg s t r

/-- 42_transfer.md R181. -/
def Obligations.LoadiLoadsTheLiteral : Prop :=
  (∀ w : Word, w &&& 0xF000#16 = 0x2000#16 → decodeWord w = .ok (.loadi (w.extractLsb' 8 4) (w.extractLsb' 0 8))) ∧
  ∀ r xy s, ∃ t, exec (.loadi r xy) s = .next t ∧ t.readReg r = xy ∧ OnlyReg s t r

/-- 42_transfer.md R182, with the address stored to computed by the meaning's own `storeAddress`. -/
def Obligations.StoreWritesTheCell : Prop :=
  (∀ w : Word, w &&& 0xF000#16 = 0x3000#16 → decodeWord w = .ok (.store (w.extractLsb' 8 4) (w.extractLsb' 0 8))) ∧
  (∀ xy, storeAddress xy = xy) ∧
  ∀ r xy s, ∃ t, exec (.store r xy) s = .next t ∧
    ∀ a, storeAddress xy = a →
      t.memRead a = s.readReg r ∧ OnlyCellAndOut s t a ∧
      t.out = if a = 0x00#8 then s.out ++ [s.readReg r] else s.out

/-- 42_transfer.md R183: the copy goes from d2 to d3, and d1 has no effect. -/
def Obligations.MoveCopiesTheRegister : Prop :=
  (∀ w : Word, w &&& 0xF000#16 = 0x4000#16 →
    decodeWord w = .ok (.move (w.extractLsb' 8 4) (w.extractLsb' 4 4) (w.extractLsb' 0 4))) ∧
  ∀ g r d s, ∃ t, exec (.move g r d) s = .next t ∧ t.readReg d = s.readReg r ∧ OnlyReg s t d

/-- 43_alu.md R200: the sum of the two's-complement values, encoded; that is the unsigned sum modulo 256. -/
def Obligations.AddiAddsModulo256 : Prop :=
  (∀ w : Word, w &&& 0xF000#16 = 0x5000#16 →
    decodeWord w = .ok (.addi (w.extractLsb' 8 4) (w.extractLsb' 4 4) (w.extractLsb' 0 4))) ∧
  ∀ r a b s, ∃ t, exec (.addi r a b) s = .next t ∧
    t.readReg r = encodeInt (decodeInt (s.readReg a) + decodeInt (s.readReg b)) ∧
    (t.readReg r).toNat = ((s.readReg a).toNat + (s.readReg b).toNat) % 256 ∧ OnlyReg s t r

/-- 43_alu.md R201: the exact rational sum, encoded as 40_codec.md R127 says; an exact zero gives 0x00 under ENCODE_00 and no
next state under STUCK. -/
def Obligations.AddfAddsExactly : Prop :=
  (∀ w : Word, w &&& 0xF000#16 = 0x6000#16 →
    decodeWord w = .ok (.addf (w.extractLsb' 8 4) (w.extractLsb' 4 4) (w.extractLsb' 0 4))) ∧
  ∀ r a b s,
    (floatValue (s.readReg a) + floatValue (s.readReg b) ≠ 0 →
      ∃ t, exec (.addf r a b) s = .next t ∧
        IsFloatEncoding (floatValue (s.readReg a) + floatValue (s.readReg b)) (t.readReg r) ∧ OnlyReg s t r) ∧
    (floatValue (s.readReg a) + floatValue (s.readReg b) = 0 → s.floatZeroPolicy = .encode00 →
      ∃ t, exec (.addf r a b) s = .next t ∧ t.readReg r = 0x00#8 ∧ OnlyReg s t r) ∧
    (floatValue (s.readReg a) + floatValue (s.readReg b) = 0 → s.floatZeroPolicy = .stuck →
      exec (.addf r a b) s = .fault .floatZeroStuck)

/-- 43_alu.md R202, R203, R204: bit by bit. -/
def Obligations.BitwiseOpsWorkBitByBit : Prop :=
  (∀ w : Word, w &&& 0xF000#16 = 0x7000#16 →
    decodeWord w = .ok (.or (w.extractLsb' 8 4) (w.extractLsb' 4 4) (w.extractLsb' 0 4))) ∧
  (∀ w : Word, w &&& 0xF000#16 = 0x8000#16 →
    decodeWord w = .ok (.and (w.extractLsb' 8 4) (w.extractLsb' 4 4) (w.extractLsb' 0 4))) ∧
  (∀ w : Word, w &&& 0xF000#16 = 0x9000#16 →
    decodeWord w = .ok (.xor (w.extractLsb' 8 4) (w.extractLsb' 4 4) (w.extractLsb' 0 4))) ∧
  ∀ r a b s,
    (∃ t, exec (.or r a b) s = .next t ∧ OnlyReg s t r ∧
      ∀ i < 8, (t.readReg r).getLsbD i = ((s.readReg a).getLsbD i || (s.readReg b).getLsbD i)) ∧
    (∃ t, exec (.and r a b) s = .next t ∧ OnlyReg s t r ∧
      ∀ i < 8, (t.readReg r).getLsbD i = ((s.readReg a).getLsbD i && (s.readReg b).getLsbD i)) ∧
    (∃ t, exec (.xor r a b) s = .next t ∧ OnlyReg s t r ∧
      ∀ i < 8, (t.readReg r).getLsbD i = ((s.readReg a).getLsbD i ^^ (s.readReg b).getLsbD i))

/-- 43_alu.md R205: bit i of the result is bit (i + n) mod 8 of the old value, n being the count modulo 8. -/
def Obligations.RorRotatesInPlace : Prop :=
  (∀ w : Word, w &&& 0xF000#16 = 0xA000#16 →
    decodeWord w = .ok (.ror (w.extractLsb' 8 4) (w.extractLsb' 4 4) (w.extractLsb' 0 4))) ∧
  ∀ r g x s, ∃ t, exec (.ror r g x) s = .next t ∧ OnlyReg s t r ∧
    ∀ i < 8, (t.readReg r).getLsbD i = (s.readReg r).getLsbD ((i + x.toNat % 8) % 8)

/-- 44_control.md R230. -/
def Obligations.JeqBranchesIfEqual : Prop :=
  (∀ w : Word, w &&& 0xF000#16 = 0xB000#16 → decodeWord w = .ok (.jeq (w.extractLsb' 8 4) (w.extractLsb' 0 8))) ∧
  ∀ r xy s, ∃ t, exec (.jeq r xy) s = .next t ∧ OnlyPc s t ∧
    (s.readReg 0x0#4 = s.readReg r → t.pc = xy) ∧ (s.readReg 0x0#4 ≠ s.readReg r → t.pc = s.pc)

/-- 44_control.md R232: a signed, strict comparison of the two's-complement values. -/
def Obligations.JltBranchesIfLess : Prop :=
  (∀ w : Word, w &&& 0xF000#16 = 0xD000#16 → decodeWord w = .ok (.jlt (w.extractLsb' 8 4) (w.extractLsb' 0 8))) ∧
  ∀ r xy s, ∃ t, exec (.jlt r xy) s = .next t ∧ OnlyPc s t ∧
    ((s.readReg 0x0#4).toInt < (s.readReg r).toInt → t.pc = xy) ∧
    ((s.readReg r).toInt ≤ (s.readReg 0x0#4).toInt → t.pc = s.pc)

/-- 44_control.md R231: the instruction sets the halt flag and nothing else; the cycle that runs it ends HALTED with `pc`
after the instruction, registers, cells and `out` as they were, and the flag cleared (41_fetch_decode.md R162). The unspecified
`ir` is left out of the comparison (assumption log 3). -/
def Obligations.HaltEndsTheCycleHalted : Prop :=
  (∀ w : Word, w &&& 0xF000#16 = 0xC000#16 → decodeWord w = .ok (.halt (w.extractLsb' 0 12))) ∧
  (∀ g s, exec (.halt g) s = .next { s with haltFlag := true }) ∧
  ∀ s : State, s.fsm = .idle → s.pc.toNat ≤ 253 → s.memRead2 s.pc &&& 0xF000#16 = 0xC000#16 →
    ∃ t, runCycle s = .next (.halted, t) ∧ { t with ir := s.ir } = { s with pc := s.pc + 2#8, haltFlag := false }

/-! ## The codec (40_codec.md) -/

/-- 40_codec.md R121, R122, R123: two's complement in -128..127, any integer encoded modulo 256, and both round trips. -/
def Obligations.IntCodecIsTwosComplement : Prop :=
  (∀ b : Byte, decodeInt b = (if b.getLsbD 7 then (b.toNat : Int) - 256 else (b.toNat : Int)) ∧
    decodeInt b = b.toInt ∧ -128 ≤ decodeInt b ∧ decodeInt b ≤ 127) ∧
  (∀ n : Int, ((encodeInt n).toNat : Int) = n % 256) ∧
  (∀ v : Int, -128 ≤ v → v ≤ 127 → decodeInt (encodeInt v) = v) ∧ (∀ b : Byte, encodeInt (decodeInt b) = b)

/-- 40_codec.md R125: the fraction the decoder makes stands for `(-1)^s (1 + M/16) 2^(E - 4)`, for every byte. -/
def Obligations.DecodeFloatIsTheFormula : Prop :=
  ∀ b : Byte, (decodeFloat b).value = floatValue b

/-- 40_codec.md R126, as far as it is a law: every value is a multiple of 1/256, and the magnitudes lie in [1/16, 31/2], so no
byte decodes to zero (R125's own inference). -/
def Obligations.FloatValuesAreBounded : Prop :=
  ∀ b : Byte, (∃ k : ℤ, floatValue b = k / 256) ∧ 1 / 16 ≤ |floatValue b| ∧ |floatValue b| ≤ 31 / 2

/-- 40_codec.md R127, R128, R129: the normalisation loops give the floor of the logarithm, the low three bits of the biased
exponent and the truncated fraction, for every nonzero rational and under both settings of FLOAT_ZERO_POLICY. -/
def Obligations.EncodeFloatNormalises : Prop :=
  ∀ (p : FloatZeroPolicy) (q : Frac), q.num ≠ 0 → 0 < q.den →
    ∃ b, encodeFloat p q = some b ∧ IsFloatEncoding q.value b

/-- 40_codec.md R127: a rational has one encoding by its fields, so the encoder does not depend on the fraction it is given. -/
def Obligations.EncodingDependsOnTheValueOnly : Prop :=
  ∀ (p : FloatZeroPolicy) (q q' : Frac), 0 < q.den → 0 < q'.den → q.value = q'.value →
    encodeFloat p q = encodeFloat p q'

/-- 40_codec.md R132, its first half: encoding a decoded byte gives it back. -/
def Obligations.FloatCodecRoundTrips : Prop :=
  ∀ (p : FloatZeroPolicy) (b : Byte), encodeFloat p (decodeFloat b) = some b

/-- 40_codec.md R130: under ENCODE_00 zero encodes as 0x00, which decodes to 1/16; under STUCK a cycle that encodes zero never
completes. -/
def Obligations.FloatZeroFollowsThePolicy : Prop :=
  (∀ d, encodeFloat .encode00 ⟨0, d⟩ = some 0x00#8) ∧ floatValue 0x00#8 = 1 / 16 ∧
  ∀ (s : State) (r a b : Reg), s.fsm = .idle → s.pc.toNat ≤ 253 → s.floatZeroPolicy = .stuck →
    decodeWord (s.memRead2 s.pc) = .ok (.addf r a b) →
    floatValue (s.readReg a) + floatValue (s.readReg b) = 0 → step s = .fault .floatZeroStuck

/-- 43_alu.md R201: ADDF is commutative, under both settings of FLOAT_ZERO_POLICY. -/
def Obligations.AddfCommutes : Prop :=
  ∀ r a b s, exec (.addf r a b) s = exec (.addf r b a) s

/-! ## Memory and the output stream (20_memory.md) -/

/-- 20_memory.md R61: the one write path, its side effect at cell 0, the error outside 0..255, and that opcode 3 and the load
both write through it. -/
def Obligations.MemWriteSetsOneCell : Prop :=
  (∀ (s : State) (a : Addr) (v : Byte),
    (s.memWrite a v).memRead a = v ∧ OnlyCellAndOut s (s.memWrite a v) a ∧
    (s.memWrite a v).out = (if a = 0x00#8 then s.out ++ [v] else s.out) ∧
    s.memWriteAt (a.toNat : Int) v = .ok (s.memWrite a v)) ∧
  (∀ (s : State) (a : Int) (v : Byte), a < 0 ∨ 255 < a → s.memWriteAt a v = .error ⟨.memory, a⟩) ∧
  (∀ (r : Reg) (xy : Addr) (s : State), exec (.store r xy) s = .next (s.memWrite xy (s.readReg r))) ∧
  (∀ (s : State) (a : Addr) (w : Word),
    s.loadWord a w = (s.memWrite a (w.extractLsb' 8 8)).memWrite (a + 1#8) (w.extractLsb' 0 8))

/-- 20_memory.md R60: a read gives the cell, or the error outside 0..255. -/
def Obligations.MemReadGivesTheCell : Prop :=
  (∀ (s : State) (a : Addr), s.memReadAt (a.toNat : Int) = .ok (s.memRead a)) ∧
  (∀ (s : State) (a : Int), a < 0 ∨ 255 < a → s.memReadAt a = .error ⟨.memory, a⟩)

/-- 20_memory.md R74: a STORE does not change the instruction in `ir` that is executing; and after the cycle that runs it, with
the machine in IDLE and every other cell as it was, a fetch of the stored cell, as the first or as the second of its two cells,
puts the stored byte into the high or the low byte of `ir`. The two ranges are the addresses a fetch can start at and, one
higher, those of its second cell (41_fetch_decode.md R151); `pc` is put there as a branch or the host may put it. -/
def Obligations.StoresAreSeenByTheNextFetch : Prop :=
  (∀ (r : Reg) (xy : Addr) (u v : State), exec (.store r xy) u = .next v → v.ir = u.ir) ∧
  ∀ (r : Reg) (xy : Addr) (s : State), s.fsm = .idle → s.pc.toNat ≤ 253 → decodeWord (s.memRead2 s.pc) = .ok (.store r xy) →
    ∃ t, step s = .next t ∧ t.fsm = .idle ∧ (∀ a, a ≠ storeAddress xy → t.memRead a = s.memRead a) ∧
      (∀ c, storeAddress xy = c → c.toNat ≤ 253 →
        ∃ f, fsmTransition ({ t with pc := c } : State).beginCycle = .next (none, f) ∧ highByte f.ir = s.readReg r) ∧
      (∀ c, storeAddress xy = c → 1 ≤ c.toNat → c.toNat ≤ 254 →
        ∃ f, fsmTransition ({ t with pc := c - 1#8 } : State).beginCycle = .next (none, f) ∧ lowByte f.ir = s.readReg r)

/-- 10_state.md R31, for one step: the output stream is as it was, or a store to cell 0 has appended the byte stored. -/
def Obligations.StepsOnlyAppendOutput : Prop :=
  ∀ s t, s.fsm = .idle → step s = .next t →
    t.out = s.out ∨
    ∃ r, decodeWord (s.memRead2 s.pc) = .ok (.store r 0x00#8) ∧ t.out = s.out ++ [s.readReg r]

/-- 10_state.md R31: only `loadProgram` empties the output stream; every other command leaves what was there and at most
appends. -/
def Obligations.OnlyALoadEmptiesOutput : Prop :=
  ∀ (c : HostCommand) (s t : State) (r : Reply), hostCommand c s = .next (r, t) →
    (∃ src st, c = .loadProgram src st) ∨ ∃ more, t.out = s.out ++ more

/-! ## Whole-machine rules about instructions -/

/-- 41_fetch_decode.md R153: an instruction writes at most one register, which is its destination, or one cell, which is that
of STORE's address, and one that writes a register or a cell does not write `pc`; a STORE touches `out` only at cell 0; JEQ and
JLT write nothing but `pc`; and HALT writes nothing but the halt flag. -/
def Obligations.AtMostOneRegisterOrCell : Prop :=
  ∀ i s t, exec i s = .next t →
    (∀ d, destinationReg i = some d → OnlyReg s t d) ∧
    (destinationReg i = none → ∀ q, t.readReg q = s.readReg q) ∧
    (∀ r xy, i = .store r xy →
      OnlyCellAndOut s t (storeAddress xy) ∧ (storeAddress xy ≠ 0x00#8 → t.out = s.out)) ∧
    ((∀ r xy, i ≠ .store r xy) → (∀ a, t.memRead a = s.memRead a) ∧ t.out = s.out) ∧
    (∀ r xy, i = .jeq r xy ∨ i = .jlt r xy → OnlyPc s t) ∧
    (∀ g, i = .halt g → t = { s with haltFlag := true })

/-- 10_state.md R36, the write half: no instruction writes `fault`, `fsm`, `ir` or `cycles`, and only HALT the halt flag. -/
def Obligations.InstructionsKeepControlState : Prop :=
  ∀ i s t, exec i s = .next t →
    t.fault = s.fault ∧ t.fsm = s.fsm ∧ t.ir = s.ir ∧ t.cycles = s.cycles ∧ t.floatZeroPolicy = s.floatZeroPolicy ∧
    (t.haltFlag = s.haltFlag ∨ ∃ g, i = .halt g)

/-- 10_state.md R36, the read half: what an instruction does to registers, cells and `pc` does not depend on `halt_flag`,
`fault`, `fsm`, `ir`, `cycles` or `out`. -/
def Obligations.InstructionsDoNotReadControlState : Prop :=
  ∀ i s s', s'.regs = s.regs → s'.pc = s.pc → s'.mem = s.mem → s'.floatZeroPolicy = s.floatZeroPolicy →
    (∀ t, exec i s = .next t → ∃ t', exec i s' = .next t' ∧ t'.regs = t.regs ∧ t'.pc = t.pc ∧ t'.mem = t.mem) ∧
    (∀ r, exec i s = .fault r → exec i s' = .fault r)

/-- 41_fetch_decode.md R163 and 40_codec.md R130: no instruction is refused, and the only stop of one is ADDF of an exact zero
sum under STUCK. -/
def Obligations.InstructionsCompleteButForStuckZero : Prop :=
  ∀ i s, (∃ t, exec i s = .next t) ∨
    (s.floatZeroPolicy = .stuck ∧ exec i s = .fault .floatZeroStuck ∧
      ∃ d a b, i = .addf d a b ∧ floatValue (s.readReg a) + floatValue (s.readReg b) = 0)

/-! ## The cycle and the FSM (41_fetch_decode.md) -/

/-- 41_fetch_decode.md R150, R151, R152: from IDLE, where the fetch is possible and its word (the lower cell in the high byte)
decodes to `i`, a step is `exec i` of the state whose `ir` holds that word and whose `pc` has advanced by 2, and then the
halt flag cleared and the FSM IDLE. That `ir` still holds the word afterwards is the model's choice (assumption log 3). The
outcome is read from the halt flag at the cycle's end, whichever instruction ran: where the flag is 1 at the start, which no
command leaves, that is the model's reading (assumption log 20, DEDUCED). -/
def Obligations.StepRunsTheDecodedInstruction : Prop :=
  ∀ (s : State) (i : Instr), s.fsm = .idle → s.pc.toNat ≤ 253 →
    decodeWord (s.memRead s.pc ++ s.memRead (s.pc + 1#8) : Word) = .ok i →
    let f : State :=
      { s with ir := (s.memRead s.pc ++ s.memRead (s.pc + 1#8) : Word), pc := s.pc + 2#8, fsm := .execute }
    (∀ t, exec i f = .next t →
      step s = .next { t with haltFlag := false, fsm := .idle } ∧
      runCycle s = .next (if t.haltFlag then .halted else .continue, { t with haltFlag := false, fsm := .idle })) ∧
    (∀ r, exec i f = .fault r → step s = .fault r)

/-- 60_exceptions.md R252: MemoryExhausted, before anything is read, with `pc` and all other state unchanged. -/
def Obligations.FetchPastTheEndFaults : Prop :=
  ∀ s : State, s.fsm = .idle → 255 < s.pc.toNat + 2 →
    runCycle s = .next (.fault .memoryExhausted, { s with fault := some (.memoryExhausted s.pc), fsm := .faulted })

/-- 60_exceptions.md R254: UnknownOpcode, with `pc` advanced by 2 and no register, cell or `out` written. The
unspecified `ir` is left out of the comparison (assumption log 3). -/
def Obligations.UnknownOpcodeFaults : Prop :=
  ∀ s : State, s.fsm = .idle → s.pc.toNat ≤ 253 →
    (digit0 (s.memRead2 s.pc) = 0x0#4 ∨ digit0 (s.memRead2 s.pc) = 0xE#4 ∨ digit0 (s.memRead2 s.pc) = 0xF#4) →
    ∃ t, runCycle s = .next (.fault .unknownOpcode, t) ∧
      { t with ir := s.ir } =
        { s with pc := s.pc + 2#8, fault := some (.unknownOpcode (s.memRead2 s.pc) s.pc), fsm := .faulted }

/-- 10_state.md R25, for one step: `pc` is unchanged where the fetch failed, else it is advanced by 2, or it is the target of
a branch B or D whose condition holds. -/
def Obligations.OnlyFetchAndBranchesWritePc : Prop :=
  ∀ s t, s.fsm = .idle → step s = .next t →
    (253 < s.pc.toNat ∧ t.pc = s.pc) ∨
    (s.pc.toNat ≤ 253 ∧
      (t.pc = s.pc + 2#8 ∨
        (∃ r, decodeWord (s.memRead2 s.pc) = .ok (.jeq r t.pc) ∧ s.readReg 0x0#4 = s.readReg r) ∨
        (∃ r, decodeWord (s.memRead2 s.pc) = .ok (.jlt r t.pc) ∧ (s.readReg 0x0#4).toInt < (s.readReg r).toInt)))

/-- 41_fetch_decode.md R155, and the cycle as a sequence of its transitions. The rows of `d0` = C and of any other legal `d0` are
stated together, by the halt flag the instruction leaves; where the flag is 1 at the start, which no command leaves, HALTED after
an instruction other than C is the model's reading (assumption log 20, DEDUCED). That `ir` is kept at the cycle's end is its
choice (assumption log 3, DESIGN CHOICE), and so is that a cycle started in FETCH or EXECUTE completes the rest of the cycle
(assumption log 7, DESIGN CHOICE). -/
def Obligations.CycleFollowsTheFsmTable : Prop :=
  ∀ s : State,
    (s.fsm = .idle → fsmTransition s = .next (none, { s with fsm := .fetch })) ∧
    (s.fsm = .fetch → 255 < s.pc.toNat + 2 →
      fsmTransition s = .next (some (.fault .memoryExhausted), s.raise (.memoryExhausted s.pc))) ∧
    (s.fsm = .fetch → s.pc.toNat + 2 ≤ 255 →
      fsmTransition s = .next (none, { s with ir := s.memRead2 s.pc, pc := s.pc + 2#8, fsm := .execute })) ∧
    (s.fsm = .execute → wordLegal s.ir = false →
      fsmTransition s = .next (some (.fault .unknownOpcode), s.raise (.unknownOpcode s.ir (s.pc - 2#8)))) ∧
    (∀ i t, s.fsm = .execute → decodeWord s.ir = .ok i → exec i s = .next t →
      fsmTransition s =
        .next (some (if t.haltFlag then .halted else .continue), { t with haltFlag := false, fsm := .idle })) ∧
    (∀ i r, s.fsm = .execute → decodeWord s.ir = .ok i → exec i s = .fault r → fsmTransition s = .fault r) ∧
    (s.fsm = .faulted → fsmTransition s = .refused .faultLatched) ∧
    (∀ t, fsmTransition s = .next (none, t) → runCycle s = runCycle t) ∧
    (∀ o t, fsmTransition s = .next (some o, t) → runCycle s = .next (o, t))

/-- The word that `withFetchWord` places is the one the next step fetches, from any state (the model's own operation,
assumption log 11). -/
def Obligations.PlacedWordIsFetched : Prop :=
  ∀ (s : State) (w : Nat), w < 2 ^ 16 →
    (s.withFetchWord 16 w).fsm = .idle ∧ (s.withFetchWord 16 w).pc.toNat ≤ 253 ∧
    (s.withFetchWord 16 w).memRead2 (s.withFetchWord 16 w).pc = BitVec.ofNat 16 w ∧
    (s.withFetchWord 16 w).regs = s.regs ∧ (s.withFetchWord 16 w).out = s.out

/-! ## Faults (60_exceptions.md) -/

/-- 60_exceptions.md R257, for cycles: a fault is latched with FAULTED and its kind is the cycle's outcome; registers, cells,
`out` and `halt_flag` are as they were; `pc` is unchanged by MemoryExhausted and advanced by 2 by UnknownOpcode. That a cycle
leaves `cycles` (assumption log 8, DEDUCED) and FLOAT_ZERO_POLICY (assumption log 1) is the model's reading; the unspecified `ir`
is left out (assumption log 3). -/
def Obligations.CycleFaultsArePrecise : Prop :=
  ∀ (s t : State) (k : ErrorKind), s.fsm = .idle → runCycle s = .next (.fault k, t) →
    SameData s t ∧ t.haltFlag = s.haltFlag ∧ t.cycles = s.cycles ∧ t.floatZeroPolicy = s.floatZeroPolicy ∧ t.fsm = .faulted ∧
    ((k = .memoryExhausted ∧ t.fault = some (.memoryExhausted s.pc) ∧ t.pc = s.pc) ∨
     (k = .unknownOpcode ∧ t.fault = some (.unknownOpcode (s.memRead2 s.pc) s.pc) ∧ t.pc = s.pc + 2#8))

/-- 41_fetch_decode.md R161: in FAULTED, step and run are refused with no state change; `snapshot`, `get` and
`setProgramCounter` work; a successful `loadProgram` clears the fault. -/
def Obligations.FaultedRefusesToRun : Prop :=
  ∀ s : State, s.fsm = .faulted →
    step s = .refused .faultLatched ∧
    hostCommand .runOneCycle s = .next (.cycle .refused, s) ∧
    (∀ m, hostCommand (.runUntilHaltOrLimit m) s = .next (.run .refused, s)) ∧
    hostCommand .snapshot s = .next (.view s.snapshot, s) ∧
    (∀ r : Reg, hostCommand (.getRegister r.toNat) s = .next (.byte (s.readReg r), s)) ∧
    (∀ a : Addr, hostCommand (.getMemory a.toNat) s = .next (.byte (s.memRead a), s)) ∧
    (∀ a : Addr, hostCommand (.setProgramCounter a.toNat) s = .next (.pcSet, { s with pc := a })) ∧
    (∀ src st t, hostCommand (.loadProgram src st) s = .next (.load .loaded, t) → t.fault = none ∧ t.fsm = .idle)

/-- 60_exceptions.md R259: a latched fault stays, with FAULTED, through every command but `loadProgram`, and steps and runs are
refused; a successful `loadProgram` clears it, and the fault that a failing one raises replaces it: a load's result and the state
it leaves are the same whatever fault was latched before. -/
def Obligations.OnlyALoadReplacesAFault : Prop :=
  ∀ (c : HostCommand) (s t : State) (r : Reply), s.fsm = .faulted → hostCommand c s = .next (r, t) →
    ((∀ src st, c ≠ .loadProgram src st) ∧ t.fault = s.fault ∧ t.fsm = .faulted ∧
      (c = .runOneCycle → r = .cycle .refused) ∧ (∀ m, c = .runUntilHaltOrLimit m → r = .run .refused)) ∨
    (∃ src st, c = .loadProgram src st ∧ (∀ g, hostCommand c { s with fault := g } = .next (r, t)) ∧
      ((r = .load .loaded ∧ t.fault = none ∧ t.fsm = .idle) ∨
       (∃ f, r = .load (.fault f.kind) ∧ t.fault = some f ∧ t.fsm = .faulted)))

/-- 60_exceptions.md R251: OutOfRange is the result of `get` and `setProgramCounter` for an index outside its space, for nothing
else, and changes nothing. -/
def Obligations.OutOfRangeIsOnlyAReply : Prop :=
  (∀ (s : State) (i : Int), i < 0 ∨ 15 < i → hostCommand (.getRegister i) s = .next (.outOfRange ⟨.register, i⟩, s)) ∧
  (∀ (s : State) (i : Int), i < 0 ∨ 255 < i → hostCommand (.getMemory i) s = .next (.outOfRange ⟨.memory, i⟩, s)) ∧
  (∀ (s : State) (i : Int), i < 0 ∨ 255 < i → hostCommand (.setProgramCounter i) s = .next (.outOfRange ⟨.pc, i⟩, s)) ∧
  ∀ (c : HostCommand) (s t : State) (e : OutOfRange), hostCommand c s = .next (.outOfRange e, t) →
    t = s ∧
    ((c = .setProgramCounter e.index ∧ e.space = .pc ∧ (e.index < 0 ∨ 255 < e.index)) ∨
     (c = .getRegister e.index ∧ e.space = .register ∧ (e.index < 0 ∨ 15 < e.index)) ∨
     (c = .getMemory e.index ∧ e.space = .memory ∧ (e.index < 0 ∨ 255 < e.index)))

/-! ## Host commands (41_fetch_decode.md) -/

/-- 41_fetch_decode.md R158: `setProgramCounter`, in any FSM state. -/
def Obligations.SetProgramCounterSetsPcOnly : Prop :=
  (∀ (s : State) (a : Addr), hostCommand (.setProgramCounter a.toNat) s = .next (.pcSet, { s with pc := a })) ∧
  (∀ (s : State) (a : Int), a < 0 ∨ 255 < a →
    hostCommand (.setProgramCounter a) s = .next (.outOfRange ⟨.pc, a⟩, s))

/-- 41_fetch_decode.md R159 and 20_memory.md R62: what `snapshot` returns, without changing any state; each byte of `out` is
one character (its own code below 0x80) and two uppercase hex digits with a space. -/
def Obligations.SnapshotShowsTheState : Prop :=
  (∀ d : Digit,
    ['0', '1', '2', '3', '4', '5', '6', '7', '8', '9', 'A', 'B', 'C', 'D', 'E', 'F'][d.toNat]? = some (hexDigit d)) ∧
  ∀ s : State, ∃ v : Snapshot, hostCommand .snapshot s = .next (.view v, s) ∧
    v.registers.length = 16 ∧ (∀ r : Reg, v.registers[r.toNat]? = some (s.readReg r)) ∧
    v.cells.length = 256 ∧ (∀ a : Addr, v.cells[a.toNat]? = some (s.memRead a)) ∧
    v.out = s.out ∧ v.pc = s.pc ∧ v.fault = s.fault ∧
    v.ascii.length = s.out.length ∧
    (∀ (k : Nat) (b : Byte), s.out[k]? = some b → b.toNat < 128 → v.ascii[k]? = some (Char.ofNat b.toNat)) ∧
    v.hex.length = 3 * s.out.length ∧
    (∀ (k : Nat) (b : Byte), s.out[k]? = some b →
      v.hex[3 * k]? = some (hexDigit (b.extractLsb' 4 4)) ∧
      v.hex[3 * k + 1]? = some (hexDigit (b.extractLsb' 0 4)) ∧ v.hex[3 * k + 2]? = some ' ')

/-- 70_reset_and_hazards.md R289: a run that is not refused ends in exactly one of the three ways, with its count of cycles,
unless under STUCK a cycle never completes. That the field `cycles` keeps the count after the run is the model's reading
(assumption log 8). -/
def Obligations.RunsEndInOneOfThreeWays : Prop :=
  ∀ (m : Nat) (s : State), s.fsm ≠ .faulted →
    (s.floatZeroPolicy = .stuck ∧ runUntilHaltOrLimit m s = .fault .floatZeroStuck) ∨
    ∃ r t, runUntilHaltOrLimit m s = .next (r, t) ∧
      ((∃ n, 1 ≤ n ∧ n ≤ m ∧ r = .halted n ∧ t.cycles = n) ∨
       (∃ k n, 1 ≤ n ∧ n ≤ m ∧ r = .fault k n ∧ t.cycles = n ∧ t.fsm = .faulted) ∨
       (r = .limit m ∧ t.cycles = m))

/-- 41_fetch_decode.md R157: in FAULTED a run is refused; the limit is 128 when the host gives none; and a run is its count of
cycles, one after another from the current state, all but the last CONTINUE, the last one deciding the result. What the run
changes besides `cycles` is what those steps change; that a step leaves `cycles` is the model's reading (assumption log 8,
DEDUCED). -/
def Obligations.RunsAreRepeatedSteps : Prop :=
  (∀ s : State, hostCommand (.runUntilHaltOrLimit none) s = hostCommand (.runUntilHaltOrLimit (some 128)) s) ∧
  (∀ (m : Nat) (s : State), s.fsm = .faulted → runUntilHaltOrLimit m s = .next (.refused, s)) ∧
  ∀ (m : Nat) (s t : State) (r : RunResult), s.fsm ≠ .faulted → runUntilHaltOrLimit m s = .next (r, t) →
    ∃ n, n ≤ m ∧ Host.Core.run Sys2Proof.core n s = .next { t with cycles := s.cycles } ∧
      (∀ j, j + 1 < n → ∃ u v, Host.Core.run Sys2Proof.core j s = .next u ∧ runCycle u = .next (.continue, v)) ∧
      (n = 0 → m = 0 ∧ r = .limit 0) ∧
      (n ≠ 0 → ∃ u o, Host.Core.run Sys2Proof.core (n - 1) s = .next u ∧
        runCycle u = .next (o, { t with cycles := s.cycles }) ∧
        ((o = .halted ∧ r = .halted n) ∨ (∃ k, o = .fault k ∧ r = .fault k n) ∨
          (o = .continue ∧ r = .limit n ∧ n = m)))

/-! ## Reset and loading (70_reset_and_hazards.md) -/

/-- 10_state.md R39: power-on is what loading an empty program at the default address leaves; `ir`, which R38 calls
unspecified, and the setting of FLOAT_ZERO_POLICY (assumption logs 3 and 1) are left out of the comparison. -/
def Obligations.PowerOnIsAnEmptyLoad : Prop :=
  (∀ s : State, ∃ t, hostCommand (.loadProgram [] none) s = .next (.load .loaded, t) ∧
    { t with ir := s.ir, floatZeroPolicy := s.floatZeroPolicy } =
      { State.reset with ir := s.ir, floatZeroPolicy := s.floatZeroPolicy }) ∧
  (∀ r, State.reset.readReg r = 0x00#8) ∧ (∀ a, State.reset.memRead a = 0x00#8) ∧ State.reset.out = [] ∧
  State.reset.pc = 0x10#8 ∧ State.reset.haltFlag = false ∧ State.reset.fault = none ∧ State.reset.fsm = .idle ∧
  State.reset.cycles = 0

/-- 70_reset_and_hazards.md R290, its last sentence: a run from power-on faults at once. -/
def Obligations.PowerOnRunFaultsAtOnce : Prop :=
  ∃ t, step State.reset = .next t ∧ t.fault = some (.unknownOpcode 0x0000#16 0x10#8) ∧ t.pc = 0x12#8 ∧ t.fsm = .faulted

/-- 10_state.md R38 and 70_reset_and_hazards.md R280, R282 and R283: a program of well-formed tokens that fits is loaded at its start
address, its words' high bytes first, and all else is reset; and no other load is successful. -/
def Obligations.LoadPlacesTheProgram : Prop :=
  (∀ (s : State) (src st : List Char) (a : Addr) (ws : List Word),
    parseStart st = some a → tokenWords (tokens src) = some ws → a.toNat + 2 * ws.length ≤ 256 →
    ∃ t, s.loadProgram src st = (.loaded, t) ∧ Loaded s t a ws ∧ t.fault = none ∧ t.fsm = .idle ∧ t.cycles = 0) ∧
  (∀ (s t : State) (src st : List Char), s.loadProgram src st = (.loaded, t) →
    ∃ a ws, parseStart st = some a ∧ tokenWords (tokens src) = some ws ∧ a.toNat + 2 * ws.length ≤ 256)

/-- 70_reset_and_hazards.md R283: at the first token without room the load fails with ProgramTooLarge; the
`(256 - start) div 2` tokens before it stay written. That a failed load leaves `cycles` is the model's reading (assumption
log 8). -/
def Obligations.LoadOverflowStopsTheLoad : Prop :=
  ∀ (s : State) (src st : List Char) (a : Addr) (good rest : List (List Char)) (ws : List Word) (tk : List Char) (w : Word),
    parseStart st = some a → tokens src = good ++ tk :: rest → tokenWords good = some ws →
    parseWord (tk.map upperChar) = some w → ws.length = (256 - a.toNat) / 2 →
    ∃ t, s.loadProgram src st = (.fault .programTooLarge, t) ∧ Loaded s t a ws ∧
      t.fault = some (.programTooLarge (a.toNat + 2 * ws.length)) ∧ t.fsm = .faulted ∧ t.cycles = s.cycles

/-- 60_exceptions.md R256 and 70_reset_and_hazards.md R282: the load fails with MalformedToken at the first token that is not
4 hex digits; the tokens before it stay written. That the recorded text is the uppercased token and the position its index
(assumption log 13), and that a failed load leaves `cycles` (assumption log 8), are the model's readings. -/
def Obligations.MalformedTokenStopsTheLoad : Prop :=
  ∀ (s : State) (src st : List Char) (a : Addr) (good rest : List (List Char)) (ws : List Word) (bad : List Char),
    parseStart st = some a → tokens src = good ++ bad :: rest → tokenWords good = some ws →
    parseWord (bad.map upperChar) = none → a.toNat + 2 * ws.length ≤ 256 →
    ∃ t, s.loadProgram src st = (.fault .malformedToken, t) ∧ Loaded s t a ws ∧
      t.fault = some (.malformedToken (.token good.length) (bad.map upperChar)) ∧ t.fsm = .faulted ∧ t.cycles = s.cycles

/-- 70_reset_and_hazards.md R282: a start address that is not exactly 2 uppercase hex digits fails the load, and nothing else
changes. That the recorded position is `start` and the recorded text is the one given is the model's reading (assumption log 13,
DEDUCED). -/
def Obligations.MalformedStartChangesNothingElse : Prop :=
  ∀ (s : State) (src st : List Char), (¬ ∃ a : Addr, st = hexText a) →
    s.loadProgram src st =
      (.fault .malformedToken, { s with fault := some (.malformedToken .start st), fsm := .faulted })

/-- 70_reset_and_hazards.md R282 and 30_encoding.md R97: whitespace is the six characters R282 names; tokens are the maximal runs
of non-whitespace, the last of which may end the text; exactly the texts of 4 uppercase digits parse, each to its word; a lowercase
letter is first made uppercase, and nothing else is changed, which on characters outside ASCII is the model's reading (assumption
log 12, DEDUCED). -/
def Obligations.TokensAreMaximalRuns : Prop :=
  (∀ c, isSpace c = true ↔ c ∈ [' ', '\t', '\n', Char.ofNat 11, Char.ofNat 12, '\r']) ∧
  (∀ n : Fin 26, upperChar (Char.ofNat (97 + n)) = Char.ofNat (65 + n)) ∧
  (∀ c : Char, c.toNat < 97 ∨ 122 < c.toNat → upperChar c = c) ∧
  (∀ (lead : List Char) (parts : List (List Char × List Char)) (last : List Char),
    (∀ c ∈ lead, isSpace c = true) →
    (∀ p ∈ parts, p.1 ≠ [] ∧ (∀ c ∈ p.1, isSpace c = false) ∧ p.2 ≠ [] ∧ ∀ c ∈ p.2, isSpace c = true) →
    (∀ c ∈ last, isSpace c = false) →
    tokens (lead ++ parts.flatMap (fun p => p.1 ++ p.2) ++ last) =
      parts.map Prod.fst ++ (if last = [] then [] else [last])) ∧
  (∀ (tk : List Char) (w : Word), parseWord tk = some w ↔ tk = wordText w)

/-! ## Invariants -/

/-- The power-on state meets the invariant. -/
def Obligations.PowerOnMeetsInvariant : Prop := State.reset.Inv

/-- Every step keeps the invariant: the memory's canonical form (assumption log 9), the halt flag 0 (10_state.md R29), the FSM at a
command boundary, and FAULTED exactly with a latched fault that holds the info of its kind (10_state.md R30, R33). -/
def Obligations.StepsKeepInvariant : Prop :=
  ∀ s t, s.Inv → step s = .next t → t.Inv

/-- Every host command keeps the invariant, so every state the host can reach meets it (10_state.md R29, R30, R33; 60_exceptions.md R250). -/
def Obligations.ReachableStatesMeetInvariant : Prop :=
  (∀ c s t r, s.Inv → hostCommand c s = .next (r, t) → t.Inv) ∧ ∀ s : State, s.Reachable → s.Inv

/-! ## Single steps and index access in every state (41_fetch_decode.md) -/

/-- 41_fetch_decode.md R160: in every state `get` of a register or a cell within its range gives its byte, and outside it
OutOfRange, with no state changed; and only a load, a step and a run change registers or cells. -/
def Obligations.GetReadsOneRegisterOrCell : Prop :=
  (∀ (s : State) (r : Reg), hostCommand (.getRegister r.toNat) s = .next (.byte (s.readReg r), s)) ∧
  (∀ (s : State) (a : Addr), hostCommand (.getMemory a.toNat) s = .next (.byte (s.memRead a), s)) ∧
  (∀ (s : State) (i : Int), i < 0 ∨ 15 < i → hostCommand (.getRegister i) s = .next (.outOfRange ⟨.register, i⟩, s)) ∧
  (∀ (s : State) (i : Int), i < 0 ∨ 255 < i → hostCommand (.getMemory i) s = .next (.outOfRange ⟨.memory, i⟩, s)) ∧
  ∀ (c : HostCommand) (s t : State) (r : Reply), hostCommand c s = .next (r, t) →
    ((∀ q, t.readReg q = s.readReg q) ∧ ∀ a, t.memRead a = s.memRead a) ∨
    (∃ src st, c = .loadProgram src st) ∨ c = .runOneCycle ∨ ∃ m, c = .runUntilHaltOrLimit m

/-- 41_fetch_decode.md R156: in FAULTED `runOneCycle` is refused and changes no state; from IDLE it runs one cycle and answers
its outcome; and a HALTED one is not sticky: it leaves IDLE, no halt flag, and `pc` after the C instruction, where the next one
fetches. -/
def Obligations.RunOneCycleAnswersTheOutcome : Prop :=
  (∀ s : State, s.fsm = .faulted → hostCommand .runOneCycle s = .next (.cycle .refused, s)) ∧
  (∀ (s t : State) (o : CycleOutcome), s.fsm = .idle → runCycle s = .next (o, t) →
    hostCommand .runOneCycle s = .next (.cycle (.done o), t)) ∧
  ∀ s t : State, s.fsm = .idle → s.haltFlag = false → hostCommand .runOneCycle s = .next (.cycle (.done .halted), t) →
    digit0 (s.memRead2 s.pc) = 0xC#4 ∧ t.fsm = .idle ∧ t.haltFlag = false ∧ t.pc = s.pc + 2#8 ∧
    (t.pc.toNat ≤ 253 →
      fsmTransition t.beginCycle = .next (none, { t with ir := t.memRead2 t.pc, pc := t.pc + 2#8, fsm := .execute }))
end

