-- ==== Sys2Proof/Laws/Codec.lean ====
section
/-! SUPPORT. The codec: what the normalisation loops leave, and the fields of an encoded byte (40_codec.md R127). -/

namespace Sys2Proof.Machine

/-! ## The normalisation loops -/

/-- What halving leaves, when the fuel is enough: only the denominator and the count have changed, and the value is below 2. -/
theorem Norm.halve_spec : ∀ (fuel n d : Nat) (e : Int), n < 2 * d * 2 ^ fuel →
    ∃ k : Nat, Norm.halve fuel ⟨n, d, e⟩ = ⟨n, d * 2 ^ k, e + k⟩ ∧ n < 2 * (d * 2 ^ k) ∧ (k = 0 ∨ d * 2 ^ k ≤ n)
  | 0, n, d, e, h => ⟨0, by simp [Norm.halve], by simpa using h, .inl rfl⟩
  | fuel + 1, n, d, e, h => by
    by_cases hd : 2 * d ≤ n
    · have h' : n < 2 * (2 * d) * 2 ^ fuel := by rw [pow_succ] at h; nlinarith
      obtain ⟨k, hk, hlt, hge⟩ := Norm.halve_spec fuel n (2 * d) (e + 1) h'
      have hden : 2 * d * 2 ^ k = d * 2 ^ (k + 1) := by rw [pow_succ]; ring
      refine ⟨k + 1, ?_, by rwa [← hden], .inr ?_⟩
      · simp only [Norm.halve, hd, if_true, hk, hden, Nat.cast_add, Nat.cast_one, Norm.mk.injEq, true_and]
        ring
      · rw [← hden]
        rcases hge with rfl | hge
        · simpa using hd
        · exact hge
    · exact ⟨0, by simp [Norm.halve, hd], by simpa using hd, .inl rfl⟩

/-- What doubling leaves, when the fuel is enough: only the numerator and the count have changed, and the value is in [1, 2). -/
theorem Norm.double_spec : ∀ (fuel n d : Nat) (e : Int), d ≤ n * 2 ^ fuel → n < 2 * d →
    ∃ j : Nat, Norm.double fuel ⟨n, d, e⟩ = ⟨n * 2 ^ j, d, e - j⟩ ∧ d ≤ n * 2 ^ j ∧ n * 2 ^ j < 2 * d
  | 0, n, d, e, h, hlt => ⟨0, by simp [Norm.double], by simpa using h, by simpa using hlt⟩
  | fuel + 1, n, d, e, h, hlt => by
    by_cases hn : n < d
    · have h' : d ≤ 2 * n * 2 ^ fuel := by rw [pow_succ] at h; nlinarith
      obtain ⟨j, hj, hge, hlt'⟩ := Norm.double_spec fuel (2 * n) d (e - 1) h' (by omega)
      have hnum : 2 * n * 2 ^ j = n * 2 ^ (j + 1) := by rw [pow_succ]; ring
      refine ⟨j + 1, ?_, by rwa [← hnum], by rwa [← hnum]⟩
      simp only [Norm.double, hn, if_true, hj, hnum, Nat.cast_add, Nat.cast_one, Norm.mk.injEq, true_and]
      ring
    · exact ⟨0, by simp [Norm.double, hn], by simpa using hn, by simpa using hlt⟩

/-- What `normalise` leaves of a positive magnitude `n / d`: the value `n 2^j / (d 2^k)` in [1, 2), and `e = k - j`. -/
theorem normalise_spec {n d : Nat} (hn : 0 < n) (hd : 0 < d) :
    ∃ k j : Nat, normalise n d = ⟨n * 2 ^ j, d * 2 ^ k, (k : Int) - j⟩ ∧
      d * 2 ^ k ≤ n * 2 ^ j ∧ n * 2 ^ j < 2 * (d * 2 ^ k) := by
  have hlog : n < 2 * d * 2 ^ Nat.log2 n := by
    have h1 : n < 2 ^ (Nat.log2 n + 1) := Nat.lt_log2_self
    rw [pow_succ] at h1
    nlinarith [Nat.one_le_two_pow (n := Nat.log2 n)]
  obtain ⟨k, hk, hlt, hge⟩ := Norm.halve_spec (Nat.log2 n) n d 0 hlog
  have hfuel : d * 2 ^ k ≤ n * 2 ^ (Nat.log2 d + 1) := by
    rcases hge with rfl | hge
    · have h1 : d < 2 ^ (Nat.log2 d + 1) := Nat.lt_log2_self
      nlinarith
    · nlinarith [Nat.one_le_two_pow (n := Nat.log2 d + 1)]
  obtain ⟨j, hj, h1, h2⟩ := Norm.double_spec (Nat.log2 d + 1) n (d * 2 ^ k) (0 + k) hfuel hlt
  exact ⟨k, j, by rw [normalise, hk, hj, zero_add], h1, h2⟩

/-! ## The fields of an encoded byte -/

theorem Norm.exponent_lt (a : Norm) : a.exponent < 8 := by unfold Norm.exponent; omega

/-- The exponent field is the biased exponent modulo 8 (40_codec.md R128). -/
theorem Norm.exponent_cast (a : Norm) : (a.exponent : Int) = (a.e + 4) % 8 := by unfold Norm.exponent; omega

theorem Norm.fraction_lt {a : Norm} (hd : 0 < a.den) (h2 : a.num < 2 * a.den) : a.fraction < 16 := by
  unfold Norm.fraction
  rw [Nat.div_lt_iff_lt_mul hd]
  omega

/-- Packing a sign, an exponent field and a fraction field gives a byte with those fields (40_codec.md R124, R127). -/
theorem packed_fields {b : Bool} {E M : Nat} (hE : E < 8) (hM : M < 16) :
    floatSign (BitVec.ofNat 8 ((if b then 128 else 0) + E * 16 + M)) = b ∧
      floatExp (BitVec.ofNat 8 ((if b then 128 else 0) + E * 16 + M)) = E ∧
      floatFrac (BitVec.ofNat 8 ((if b then 128 else 0) + E * 16 + M)) = M := by
  have h : ∀ (b : Bool) (E : Fin 8) (M : Fin 16),
      floatSign (BitVec.ofNat 8 ((if b then 128 else 0) + E.val * 16 + M.val)) = b ∧
        floatExp (BitVec.ofNat 8 ((if b then 128 else 0) + E.val * 16 + M.val)) = E.val ∧
        floatFrac (BitVec.ofNat 8 ((if b then 128 else 0) + E.val * 16 + M.val)) = M.val := by decide
  exact h b ⟨E, hE⟩ ⟨M, hM⟩

/-! ## Decoded values -/

@[simp] theorem decodeFloat_den (b : Byte) : (decodeFloat b).den = 256 := rfl

/-- No byte decodes to zero (40_codec.md R125). -/
theorem decodeFloat_num_ne_zero (b : Byte) : (decodeFloat b).num ≠ 0 := by
  revert b; decide

/-- `encodeFloat` does not complete only for zero under `STUCK` (40_codec.md R130). -/
theorem encodeFloat_eq_none_iff {p : FloatZeroPolicy} {q : Frac} :
    encodeFloat p q = none ↔ q.num = 0 ∧ p = .stuck := by
  unfold encodeFloat
  cases p <;> by_cases h : q.num = 0 <;> simp [h]

end Sys2Proof.Machine
end

