-- ==== Sys2Proof/Laws/Decode.lean ====
section
/-! SUPPORT. The fields of a word, of an encoded instruction, and of two joined bytes. -/

namespace Sys2Proof

/-! ## Fields of concatenations -/

@[simp] theorem digit0_append (a : Digit) (b : BitVec 12) : digit0 (a ++ b : BitVec 16) = a := by
  simpa [digit0] using BitVec.extractLsb'_append_eq_left (a := a) (b := b)

@[simp] theorem digits123_append (a : Digit) (b : BitVec 12) : digits123 (a ++ b : BitVec 16) = b := by
  simpa [digits123] using BitVec.extractLsb'_append_eq_right (a := a) (b := b)

@[simp] theorem highByte_joinBytes (hi lo : Byte) : highByte (joinBytes hi lo) = hi := by
  simpa [highByte, joinBytes] using BitVec.extractLsb'_append_eq_left (a := hi) (b := lo)

@[simp] theorem lowByte_joinBytes (hi lo : Byte) : lowByte (joinBytes hi lo) = lo := by
  simpa [lowByte, joinBytes] using BitVec.extractLsb'_append_eq_right (a := hi) (b := lo)

/-- A word is its two bytes joined (20_memory.md R64). -/
@[simp] theorem joinBytes_highByte_lowByte (w : Word) : joinBytes (highByte w) (lowByte w) = w := by
  have h : joinBytes (highByte w) (lowByte w) = w.extractLsb' 0 16 :=
    BitVec.extractLsb'_append_extractLsb'_eq_extractLsb' (x := w) (start₁ := 0) (len₁ := 8) (start₂ := 8) (len₂ := 8) rfl
  simpa using h

/-- A field below the opcode digit is a field of the twelve bits below it. -/
theorem field_append (a : Digit) (x : BitVec 12) {start len : Nat} (h : start + len ≤ 12) :
    (a ++ x : BitVec 16).extractLsb' start len = x.extractLsb' start len :=
  BitVec.extractLsb'_append_eq_of_add_le (xhi := a) (xlo := x) h

/-- The fields of format RXY (30_encoding.md R91). -/
theorem fields_rxy (a r : Digit) (xy : Byte) :
    digit1 (a ++ (r ++ xy : BitVec 12) : BitVec 16) = r ∧ operandXY (a ++ (r ++ xy : BitVec 12) : BitVec 16) = xy := by
  constructor
  · exact (field_append a (r ++ xy) (by omega)).trans BitVec.extractLsb'_append_eq_left
  · exact (field_append a (r ++ xy) (by omega)).trans BitVec.extractLsb'_append_eq_right

/-- The fields of formats RST, _RS and R_X (30_encoding.md R91). -/
theorem fields_rst (a r s t : Digit) :
    digit1 (a ++ (r ++ s ++ t : BitVec 12) : BitVec 16) = r ∧ digit2 (a ++ (r ++ s ++ t : BitVec 12) : BitVec 16) = s ∧
      digit3 (a ++ (r ++ s ++ t : BitVec 12) : BitVec 16) = t := by
  refine ⟨?_, ?_, ?_⟩
  · exact (field_append a (r ++ s ++ t) (by omega)).trans
      ((BitVec.extractLsb'_append_eq_of_le (xhi := r ++ s) (xlo := t) (by omega)).trans BitVec.extractLsb'_append_eq_left)
  · exact (field_append a (r ++ s ++ t) (by omega)).trans
      ((BitVec.extractLsb'_append_eq_of_le (xhi := r ++ s) (xlo := t) (by omega)).trans BitVec.extractLsb'_append_eq_right)
  · exact (field_append a (r ++ s ++ t) (by omega)).trans BitVec.extractLsb'_append_eq_right

/-! ## A word put together from its fields -/

/-- Two fields that meet, joined. -/
theorem join_fields (w : Word) (start len len' : Nat) :
    w.extractLsb' (start + len) len' ++ w.extractLsb' start len = w.extractLsb' start (len' + len) :=
  BitVec.extractLsb'_append_extractLsb'_eq_extractLsb' (x := w) rfl

theorem word_eq_digits (w : Word) : (digit0 w ++ digits123 w : Word) = w :=
  (join_fields w 0 12 4).trans (BitVec.extractLsb'_eq_self (x := w))

theorem digits123_eq_rxy (w : Word) : (digit1 w ++ operandXY w : BitVec 12) = digits123 w := join_fields w 0 8 4

theorem digits123_eq_rst (w : Word) : (digit1 w ++ digit2 w ++ digit3 w : BitVec 12) = digits123 w := by
  have h1 : (digit1 w ++ digit2 w : BitVec 8) = w.extractLsb' 4 8 := join_fields w 4 4 4
  exact (congrArg (fun u : BitVec 8 => (u ++ digit3 w : BitVec 12)) h1).trans (join_fields w 0 4 8)

theorem encode_digit0 (i : Instr) : digit0 (encode i) = i.opcode := digit0_append _ _

theorem encode_digits123 (i : Instr) : digits123 (encode i) = i.operandBits := digits123_append _ _

/-! ## Match and mask (30_encoding.md R96) -/

/-- The mask 0xF000 keeps exactly the opcode digit. -/
theorem digit0_mask (w : Word) : digit0 (w &&& 0xF000#16) = digit0 w := by
  have h : (0xF000#16).extractLsb' 12 4 = BitVec.allOnes 4 := by decide
  simp only [digit0, BitVec.extractLsb'_and, h, BitVec.and_allOnes]

/-- A word that matches `k << 12` under the mask has the opcode digit `k`. -/
theorem digit0_of_mask {w : Word} {k : Digit} (h : w &&& 0xF000#16 = k ++ 0#12) : digit0 w = k := by
  rw [← digit0_mask, h]; exact digit0_append k 0#12

/-- The number of the opcode digit is the word's number divided by 4096. -/
theorem digit0_toNat (w : Word) : (digit0 w).toNat = w.toNat / 4096 := by
  have h : w.toNat / 4096 < 16 := by have := w.isLt; omega
  simp [digit0, BitVec.extractLsb'_toNat, Nat.shiftRight_eq_div_pow, Nat.mod_eq_of_lt h]

/-- The decoder gives an instruction exactly on the legal words (30_encoding.md R94, R95). -/
theorem decodeWord_isOk (w : Word) : (decodeWord w).isOk = wordLegal w := by
  have h : (digit0 w).toNat < 16 := (digit0 w).isLt
  simp only [wordLegal, ← digit0_toNat]
  generalize hd : (digit0 w).toNat = d at h
  unfold decodeWord
  rw [hd]
  clear hd
  interval_cases d <;> rfl

/-- The opcode of a decoded instruction is the word's opcode digit. -/
theorem opcode_of_decodeWord {w : Word} {i : Instr} (h : decodeWord w = .ok i) : i.opcode = digit0 w := by
  have hb : (digit0 w).toNat < 16 := (digit0 w).isLt
  apply BitVec.eq_of_toNat_eq
  generalize hd : (digit0 w).toNat = d at hb
  unfold decodeWord at h
  rw [hd] at h
  clear hd
  interval_cases d <;> simp at h <;> subst h <;> rfl

/-- Where the decoder rejects a word it names it (30_encoding.md R94). -/
theorem reject_of_decodeWord {w : Word} {e : Reject} (h : decodeWord w = .error e) : e = .unknownOpcode w := by
  have hb : (digit0 w).toNat < 16 := (digit0 w).isLt
  generalize hd : (digit0 w).toNat = d at hb
  unfold decodeWord at h
  rw [hd] at h
  clear hd
  interval_cases d <;> simp at h <;> exact h.symm

end Sys2Proof
end

