-- ==== Sys2Proof/Laws/State.lean ====
section
/-! SUPPORT. For each update of State, what each field then holds. -/

namespace Sys2Proof.Machine

/-! ## `writeReg` -/

@[simp] theorem State.writeReg_regs (s : State) (r : Reg) (v : Byte) : (s.writeReg r v).regs = s.regs.set r.toNat v := rfl
@[simp] theorem State.writeReg_pc (s : State) (r : Reg) (v : Byte) : (s.writeReg r v).pc = s.pc := rfl
@[simp] theorem State.writeReg_mem (s : State) (r : Reg) (v : Byte) : (s.writeReg r v).mem = s.mem := rfl
@[simp] theorem State.writeReg_out (s : State) (r : Reg) (v : Byte) : (s.writeReg r v).out = s.out := rfl
@[simp] theorem State.writeReg_haltFlag (s : State) (r : Reg) (v : Byte) : (s.writeReg r v).haltFlag = s.haltFlag := rfl
@[simp] theorem State.writeReg_fault (s : State) (r : Reg) (v : Byte) : (s.writeReg r v).fault = s.fault := rfl
@[simp] theorem State.writeReg_fsm (s : State) (r : Reg) (v : Byte) : (s.writeReg r v).fsm = s.fsm := rfl
@[simp] theorem State.writeReg_ir (s : State) (r : Reg) (v : Byte) : (s.writeReg r v).ir = s.ir := rfl
@[simp] theorem State.writeReg_cycles (s : State) (r : Reg) (v : Byte) : (s.writeReg r v).cycles = s.cycles := rfl
@[simp] theorem State.writeReg_floatZeroPolicy (s : State) (r : Reg) (v : Byte) : (s.writeReg r v).floatZeroPolicy = s.floatZeroPolicy := rfl

/-! ## `setPc` -/

@[simp] theorem State.setPc_regs (s : State) (a : Addr) : (s.setPc a).regs = s.regs := rfl
@[simp] theorem State.setPc_pc (s : State) (a : Addr) : (s.setPc a).pc = a := rfl
@[simp] theorem State.setPc_mem (s : State) (a : Addr) : (s.setPc a).mem = s.mem := rfl
@[simp] theorem State.setPc_out (s : State) (a : Addr) : (s.setPc a).out = s.out := rfl
@[simp] theorem State.setPc_haltFlag (s : State) (a : Addr) : (s.setPc a).haltFlag = s.haltFlag := rfl
@[simp] theorem State.setPc_fault (s : State) (a : Addr) : (s.setPc a).fault = s.fault := rfl
@[simp] theorem State.setPc_fsm (s : State) (a : Addr) : (s.setPc a).fsm = s.fsm := rfl
@[simp] theorem State.setPc_ir (s : State) (a : Addr) : (s.setPc a).ir = s.ir := rfl
@[simp] theorem State.setPc_cycles (s : State) (a : Addr) : (s.setPc a).cycles = s.cycles := rfl
@[simp] theorem State.setPc_floatZeroPolicy (s : State) (a : Addr) : (s.setPc a).floatZeroPolicy = s.floatZeroPolicy := rfl

/-! ## `emit` -/

@[simp] theorem State.emit_regs (s : State) (v : Byte) : (s.emit v).regs = s.regs := rfl
@[simp] theorem State.emit_pc (s : State) (v : Byte) : (s.emit v).pc = s.pc := rfl
@[simp] theorem State.emit_mem (s : State) (v : Byte) : (s.emit v).mem = s.mem := rfl
@[simp] theorem State.emit_out (s : State) (v : Byte) : (s.emit v).out = s.out ++ [v] := rfl
@[simp] theorem State.emit_haltFlag (s : State) (v : Byte) : (s.emit v).haltFlag = s.haltFlag := rfl
@[simp] theorem State.emit_fault (s : State) (v : Byte) : (s.emit v).fault = s.fault := rfl
@[simp] theorem State.emit_fsm (s : State) (v : Byte) : (s.emit v).fsm = s.fsm := rfl
@[simp] theorem State.emit_ir (s : State) (v : Byte) : (s.emit v).ir = s.ir := rfl
@[simp] theorem State.emit_cycles (s : State) (v : Byte) : (s.emit v).cycles = s.cycles := rfl
@[simp] theorem State.emit_floatZeroPolicy (s : State) (v : Byte) : (s.emit v).floatZeroPolicy = s.floatZeroPolicy := rfl

/-! ## `setCell` -/

@[simp] theorem State.setCell_regs (s : State) (a : Addr) (v : Byte) : (s.setCell a v).regs = s.regs := rfl
@[simp] theorem State.setCell_pc (s : State) (a : Addr) (v : Byte) : (s.setCell a v).pc = s.pc := rfl
@[simp] theorem State.setCell_mem (s : State) (a : Addr) (v : Byte) : (s.setCell a v).mem = Memory.write s.mem a.toNat v := rfl
@[simp] theorem State.setCell_out (s : State) (a : Addr) (v : Byte) : (s.setCell a v).out = s.out := rfl
@[simp] theorem State.setCell_haltFlag (s : State) (a : Addr) (v : Byte) : (s.setCell a v).haltFlag = s.haltFlag := rfl
@[simp] theorem State.setCell_fault (s : State) (a : Addr) (v : Byte) : (s.setCell a v).fault = s.fault := rfl
@[simp] theorem State.setCell_fsm (s : State) (a : Addr) (v : Byte) : (s.setCell a v).fsm = s.fsm := rfl
@[simp] theorem State.setCell_ir (s : State) (a : Addr) (v : Byte) : (s.setCell a v).ir = s.ir := rfl
@[simp] theorem State.setCell_cycles (s : State) (a : Addr) (v : Byte) : (s.setCell a v).cycles = s.cycles := rfl
@[simp] theorem State.setCell_floatZeroPolicy (s : State) (a : Addr) (v : Byte) : (s.setCell a v).floatZeroPolicy = s.floatZeroPolicy := rfl

/-! ## `raise` -/

@[simp] theorem State.raise_regs (s : State) (f : FaultRecord) : (s.raise f).regs = s.regs := rfl
@[simp] theorem State.raise_pc (s : State) (f : FaultRecord) : (s.raise f).pc = s.pc := rfl
@[simp] theorem State.raise_mem (s : State) (f : FaultRecord) : (s.raise f).mem = s.mem := rfl
@[simp] theorem State.raise_out (s : State) (f : FaultRecord) : (s.raise f).out = s.out := rfl
@[simp] theorem State.raise_haltFlag (s : State) (f : FaultRecord) : (s.raise f).haltFlag = s.haltFlag := rfl
@[simp] theorem State.raise_fault (s : State) (f : FaultRecord) : (s.raise f).fault = some f := rfl
@[simp] theorem State.raise_fsm (s : State) (f : FaultRecord) : (s.raise f).fsm = .faulted := rfl
@[simp] theorem State.raise_ir (s : State) (f : FaultRecord) : (s.raise f).ir = s.ir := rfl
@[simp] theorem State.raise_cycles (s : State) (f : FaultRecord) : (s.raise f).cycles = s.cycles := rfl
@[simp] theorem State.raise_floatZeroPolicy (s : State) (f : FaultRecord) : (s.raise f).floatZeroPolicy = s.floatZeroPolicy := rfl

/-! ## `clearFault` -/

@[simp] theorem State.clearFault_regs (s : State) : (s.clearFault).regs = s.regs := rfl
@[simp] theorem State.clearFault_pc (s : State) : (s.clearFault).pc = s.pc := rfl
@[simp] theorem State.clearFault_mem (s : State) : (s.clearFault).mem = s.mem := rfl
@[simp] theorem State.clearFault_out (s : State) : (s.clearFault).out = s.out := rfl
@[simp] theorem State.clearFault_haltFlag (s : State) : (s.clearFault).haltFlag = s.haltFlag := rfl
@[simp] theorem State.clearFault_fault (s : State) : (s.clearFault).fault = none := rfl
@[simp] theorem State.clearFault_fsm (s : State) : (s.clearFault).fsm = .idle := rfl
@[simp] theorem State.clearFault_ir (s : State) : (s.clearFault).ir = s.ir := rfl
@[simp] theorem State.clearFault_cycles (s : State) : (s.clearFault).cycles = 0 := rfl
@[simp] theorem State.clearFault_floatZeroPolicy (s : State) : (s.clearFault).floatZeroPolicy = s.floatZeroPolicy := rfl

/-! ## `setHalt` -/

@[simp] theorem State.setHalt_regs (s : State) : (s.setHalt).regs = s.regs := rfl
@[simp] theorem State.setHalt_pc (s : State) : (s.setHalt).pc = s.pc := rfl
@[simp] theorem State.setHalt_mem (s : State) : (s.setHalt).mem = s.mem := rfl
@[simp] theorem State.setHalt_out (s : State) : (s.setHalt).out = s.out := rfl
@[simp] theorem State.setHalt_haltFlag (s : State) : (s.setHalt).haltFlag = true := rfl
@[simp] theorem State.setHalt_fault (s : State) : (s.setHalt).fault = s.fault := rfl
@[simp] theorem State.setHalt_fsm (s : State) : (s.setHalt).fsm = s.fsm := rfl
@[simp] theorem State.setHalt_ir (s : State) : (s.setHalt).ir = s.ir := rfl
@[simp] theorem State.setHalt_cycles (s : State) : (s.setHalt).cycles = s.cycles := rfl
@[simp] theorem State.setHalt_floatZeroPolicy (s : State) : (s.setHalt).floatZeroPolicy = s.floatZeroPolicy := rfl

/-! ## `clearHalt` -/

@[simp] theorem State.clearHalt_regs (s : State) : (s.clearHalt).regs = s.regs := rfl
@[simp] theorem State.clearHalt_pc (s : State) : (s.clearHalt).pc = s.pc := rfl
@[simp] theorem State.clearHalt_mem (s : State) : (s.clearHalt).mem = s.mem := rfl
@[simp] theorem State.clearHalt_out (s : State) : (s.clearHalt).out = s.out := rfl
@[simp] theorem State.clearHalt_haltFlag (s : State) : (s.clearHalt).haltFlag = false := rfl
@[simp] theorem State.clearHalt_fault (s : State) : (s.clearHalt).fault = s.fault := rfl
@[simp] theorem State.clearHalt_fsm (s : State) : (s.clearHalt).fsm = s.fsm := rfl
@[simp] theorem State.clearHalt_ir (s : State) : (s.clearHalt).ir = s.ir := rfl
@[simp] theorem State.clearHalt_cycles (s : State) : (s.clearHalt).cycles = s.cycles := rfl
@[simp] theorem State.clearHalt_floatZeroPolicy (s : State) : (s.clearHalt).floatZeroPolicy = s.floatZeroPolicy := rfl

/-! ## `beginCycle` -/

@[simp] theorem State.beginCycle_regs (s : State) : (s.beginCycle).regs = s.regs := rfl
@[simp] theorem State.beginCycle_pc (s : State) : (s.beginCycle).pc = s.pc := rfl
@[simp] theorem State.beginCycle_mem (s : State) : (s.beginCycle).mem = s.mem := rfl
@[simp] theorem State.beginCycle_out (s : State) : (s.beginCycle).out = s.out := rfl
@[simp] theorem State.beginCycle_haltFlag (s : State) : (s.beginCycle).haltFlag = s.haltFlag := rfl
@[simp] theorem State.beginCycle_fault (s : State) : (s.beginCycle).fault = s.fault := rfl
@[simp] theorem State.beginCycle_fsm (s : State) : (s.beginCycle).fsm = .fetch := rfl
@[simp] theorem State.beginCycle_ir (s : State) : (s.beginCycle).ir = s.ir := rfl
@[simp] theorem State.beginCycle_cycles (s : State) : (s.beginCycle).cycles = s.cycles := rfl
@[simp] theorem State.beginCycle_floatZeroPolicy (s : State) : (s.beginCycle).floatZeroPolicy = s.floatZeroPolicy := rfl

/-! ## `fetched` -/

@[simp] theorem State.fetched_regs (s : State) : (s.fetched).regs = s.regs := rfl
@[simp] theorem State.fetched_pc (s : State) : (s.fetched).pc = s.pc + 2#8 := rfl
@[simp] theorem State.fetched_mem (s : State) : (s.fetched).mem = s.mem := rfl
@[simp] theorem State.fetched_out (s : State) : (s.fetched).out = s.out := rfl
@[simp] theorem State.fetched_haltFlag (s : State) : (s.fetched).haltFlag = s.haltFlag := rfl
@[simp] theorem State.fetched_fault (s : State) : (s.fetched).fault = s.fault := rfl
@[simp] theorem State.fetched_fsm (s : State) : (s.fetched).fsm = .execute := rfl
@[simp] theorem State.fetched_ir (s : State) : (s.fetched).ir = s.memRead2 s.pc := rfl
@[simp] theorem State.fetched_cycles (s : State) : (s.fetched).cycles = s.cycles := rfl
@[simp] theorem State.fetched_floatZeroPolicy (s : State) : (s.fetched).floatZeroPolicy = s.floatZeroPolicy := rfl

/-! ## `raiseExhausted` -/

@[simp] theorem State.raiseExhausted_regs (s : State) : (s.raiseExhausted).regs = s.regs := rfl
@[simp] theorem State.raiseExhausted_pc (s : State) : (s.raiseExhausted).pc = s.pc := rfl
@[simp] theorem State.raiseExhausted_mem (s : State) : (s.raiseExhausted).mem = s.mem := rfl
@[simp] theorem State.raiseExhausted_out (s : State) : (s.raiseExhausted).out = s.out := rfl
@[simp] theorem State.raiseExhausted_haltFlag (s : State) : (s.raiseExhausted).haltFlag = s.haltFlag := rfl
@[simp] theorem State.raiseExhausted_fault (s : State) : (s.raiseExhausted).fault = some (.memoryExhausted s.pc) := rfl
@[simp] theorem State.raiseExhausted_fsm (s : State) : (s.raiseExhausted).fsm = .faulted := rfl
@[simp] theorem State.raiseExhausted_ir (s : State) : (s.raiseExhausted).ir = s.ir := rfl
@[simp] theorem State.raiseExhausted_cycles (s : State) : (s.raiseExhausted).cycles = s.cycles := rfl
@[simp] theorem State.raiseExhausted_floatZeroPolicy (s : State) : (s.raiseExhausted).floatZeroPolicy = s.floatZeroPolicy := rfl

/-! ## `raiseUnknown` -/

@[simp] theorem State.raiseUnknown_regs (s : State) : (s.raiseUnknown).regs = s.regs := rfl
@[simp] theorem State.raiseUnknown_pc (s : State) : (s.raiseUnknown).pc = s.pc := rfl
@[simp] theorem State.raiseUnknown_mem (s : State) : (s.raiseUnknown).mem = s.mem := rfl
@[simp] theorem State.raiseUnknown_out (s : State) : (s.raiseUnknown).out = s.out := rfl
@[simp] theorem State.raiseUnknown_haltFlag (s : State) : (s.raiseUnknown).haltFlag = s.haltFlag := rfl
@[simp] theorem State.raiseUnknown_fault (s : State) : (s.raiseUnknown).fault = some (.unknownOpcode s.ir (s.pc - 2#8)) := rfl
@[simp] theorem State.raiseUnknown_fsm (s : State) : (s.raiseUnknown).fsm = .faulted := rfl
@[simp] theorem State.raiseUnknown_ir (s : State) : (s.raiseUnknown).ir = s.ir := rfl
@[simp] theorem State.raiseUnknown_cycles (s : State) : (s.raiseUnknown).cycles = s.cycles := rfl
@[simp] theorem State.raiseUnknown_floatZeroPolicy (s : State) : (s.raiseUnknown).floatZeroPolicy = s.floatZeroPolicy := rfl

/-! ## `countCycle` -/

@[simp] theorem State.countCycle_regs (s : State) : (s.countCycle).regs = s.regs := rfl
@[simp] theorem State.countCycle_pc (s : State) : (s.countCycle).pc = s.pc := rfl
@[simp] theorem State.countCycle_mem (s : State) : (s.countCycle).mem = s.mem := rfl
@[simp] theorem State.countCycle_out (s : State) : (s.countCycle).out = s.out := rfl
@[simp] theorem State.countCycle_haltFlag (s : State) : (s.countCycle).haltFlag = s.haltFlag := rfl
@[simp] theorem State.countCycle_fault (s : State) : (s.countCycle).fault = s.fault := rfl
@[simp] theorem State.countCycle_fsm (s : State) : (s.countCycle).fsm = s.fsm := rfl
@[simp] theorem State.countCycle_ir (s : State) : (s.countCycle).ir = s.ir := rfl
@[simp] theorem State.countCycle_cycles (s : State) : (s.countCycle).cycles = s.cycles + 1 := rfl
@[simp] theorem State.countCycle_floatZeroPolicy (s : State) : (s.countCycle).floatZeroPolicy = s.floatZeroPolicy := rfl

/-! ## `resetForLoad` -/

@[simp] theorem State.resetForLoad_regs (s : State) (a : Addr) : (s.resetForLoad a).regs = Vector.replicate 16 0x00#8 := rfl
@[simp] theorem State.resetForLoad_pc (s : State) (a : Addr) : (s.resetForLoad a).pc = a := rfl
@[simp] theorem State.resetForLoad_mem (s : State) (a : Addr) : (s.resetForLoad a).mem = [] := rfl
@[simp] theorem State.resetForLoad_out (s : State) (a : Addr) : (s.resetForLoad a).out = [] := rfl
@[simp] theorem State.resetForLoad_haltFlag (s : State) (a : Addr) : (s.resetForLoad a).haltFlag = false := rfl
@[simp] theorem State.resetForLoad_fault (s : State) (a : Addr) : (s.resetForLoad a).fault = s.fault := rfl
@[simp] theorem State.resetForLoad_fsm (s : State) (a : Addr) : (s.resetForLoad a).fsm = s.fsm := rfl
@[simp] theorem State.resetForLoad_ir (s : State) (a : Addr) : (s.resetForLoad a).ir = s.ir := rfl
@[simp] theorem State.resetForLoad_cycles (s : State) (a : Addr) : (s.resetForLoad a).cycles = s.cycles := rfl
@[simp] theorem State.resetForLoad_floatZeroPolicy (s : State) (a : Addr) : (s.resetForLoad a).floatZeroPolicy = s.floatZeroPolicy := rfl

/-! ## `memWrite` -/

@[simp] theorem State.memWrite_regs (s : State) (a : Addr) (v : Byte) : (s.memWrite a v).regs = s.regs := by
  unfold State.memWrite; split <;> rfl
@[simp] theorem State.memWrite_pc (s : State) (a : Addr) (v : Byte) : (s.memWrite a v).pc = s.pc := by
  unfold State.memWrite; split <;> rfl
@[simp] theorem State.memWrite_mem (s : State) (a : Addr) (v : Byte) : (s.memWrite a v).mem = Memory.write s.mem a.toNat v := by
  unfold State.memWrite; split <;> rfl
@[simp] theorem State.memWrite_out (s : State) (a : Addr) (v : Byte) : (s.memWrite a v).out = if a = 0#8 then s.out ++ [v] else s.out := by
  unfold State.memWrite; split <;> rfl
@[simp] theorem State.memWrite_haltFlag (s : State) (a : Addr) (v : Byte) : (s.memWrite a v).haltFlag = s.haltFlag := by
  unfold State.memWrite; split <;> rfl
@[simp] theorem State.memWrite_fault (s : State) (a : Addr) (v : Byte) : (s.memWrite a v).fault = s.fault := by
  unfold State.memWrite; split <;> rfl
@[simp] theorem State.memWrite_fsm (s : State) (a : Addr) (v : Byte) : (s.memWrite a v).fsm = s.fsm := by
  unfold State.memWrite; split <;> rfl
@[simp] theorem State.memWrite_ir (s : State) (a : Addr) (v : Byte) : (s.memWrite a v).ir = s.ir := by
  unfold State.memWrite; split <;> rfl
@[simp] theorem State.memWrite_cycles (s : State) (a : Addr) (v : Byte) : (s.memWrite a v).cycles = s.cycles := by
  unfold State.memWrite; split <;> rfl
@[simp] theorem State.memWrite_floatZeroPolicy (s : State) (a : Addr) (v : Byte) : (s.memWrite a v).floatZeroPolicy = s.floatZeroPolicy := by
  unfold State.memWrite; split <;> rfl

/-! ## `branchIf` -/

@[simp] theorem State.branchIf_regs (s : State) (c : Bool) (a : Addr) : (s.branchIf c a).regs = s.regs := by
  cases c <;> rfl
@[simp] theorem State.branchIf_pc (s : State) (c : Bool) (a : Addr) : (s.branchIf c a).pc = if c = true then a else s.pc := by
  cases c <;> rfl
@[simp] theorem State.branchIf_mem (s : State) (c : Bool) (a : Addr) : (s.branchIf c a).mem = s.mem := by
  cases c <;> rfl
@[simp] theorem State.branchIf_out (s : State) (c : Bool) (a : Addr) : (s.branchIf c a).out = s.out := by
  cases c <;> rfl
@[simp] theorem State.branchIf_haltFlag (s : State) (c : Bool) (a : Addr) : (s.branchIf c a).haltFlag = s.haltFlag := by
  cases c <;> rfl
@[simp] theorem State.branchIf_fault (s : State) (c : Bool) (a : Addr) : (s.branchIf c a).fault = s.fault := by
  cases c <;> rfl
@[simp] theorem State.branchIf_fsm (s : State) (c : Bool) (a : Addr) : (s.branchIf c a).fsm = s.fsm := by
  cases c <;> rfl
@[simp] theorem State.branchIf_ir (s : State) (c : Bool) (a : Addr) : (s.branchIf c a).ir = s.ir := by
  cases c <;> rfl
@[simp] theorem State.branchIf_cycles (s : State) (c : Bool) (a : Addr) : (s.branchIf c a).cycles = s.cycles := by
  cases c <;> rfl
@[simp] theorem State.branchIf_floatZeroPolicy (s : State) (c : Bool) (a : Addr) : (s.branchIf c a).floatZeroPolicy = s.floatZeroPolicy := by
  cases c <;> rfl

/-! ## The end of a cycle -/

@[simp] theorem State.closeCycle_regs (s : State) : s.closeCycle.2.regs = s.regs := rfl
@[simp] theorem State.closeCycle_pc (s : State) : s.closeCycle.2.pc = s.pc := rfl
@[simp] theorem State.closeCycle_mem (s : State) : s.closeCycle.2.mem = s.mem := rfl
@[simp] theorem State.closeCycle_out (s : State) : s.closeCycle.2.out = s.out := rfl
@[simp] theorem State.closeCycle_haltFlag (s : State) : s.closeCycle.2.haltFlag = false := rfl
@[simp] theorem State.closeCycle_fault (s : State) : s.closeCycle.2.fault = s.fault := rfl
@[simp] theorem State.closeCycle_fsm (s : State) : s.closeCycle.2.fsm = .idle := rfl
@[simp] theorem State.closeCycle_ir (s : State) : s.closeCycle.2.ir = s.ir := rfl
@[simp] theorem State.closeCycle_cycles (s : State) : s.closeCycle.2.cycles = s.cycles := rfl
@[simp] theorem State.closeCycle_floatZeroPolicy (s : State) : s.closeCycle.2.floatZeroPolicy = s.floatZeroPolicy := rfl

/-! ## Reads after updates of other parts -/

@[simp] theorem State.readReg_setPc (s : State) (a : Addr) (q : Reg) : (s.setPc a).readReg q = s.readReg q := rfl
@[simp] theorem State.readReg_setHalt (s : State) (q : Reg) : s.setHalt.readReg q = s.readReg q := rfl
@[simp] theorem State.readReg_fetched (s : State) (q : Reg) : s.fetched.readReg q = s.readReg q := rfl
@[simp] theorem State.readReg_beginCycle (s : State) (q : Reg) : s.beginCycle.readReg q = s.readReg q := rfl
@[simp] theorem State.readReg_raise (s : State) (f : FaultRecord) (q : Reg) : (s.raise f).readReg q = s.readReg q := rfl
@[simp] theorem State.readReg_closeCycle (s : State) (q : Reg) : s.closeCycle.2.readReg q = s.readReg q := rfl
@[simp] theorem State.readReg_memWrite (s : State) (a : Addr) (v : Byte) (q : Reg) :
    (s.memWrite a v).readReg q = s.readReg q := by
  unfold State.memWrite; split <;> rfl
@[simp] theorem State.readReg_branchIf (s : State) (c : Bool) (a : Addr) (q : Reg) :
    (s.branchIf c a).readReg q = s.readReg q := by
  cases c <;> rfl
@[simp] theorem State.memRead_writeReg (s : State) (r : Reg) (v : Byte) (a : Addr) :
    (s.writeReg r v).memRead a = s.memRead a := rfl
@[simp] theorem State.memRead_setPc (s : State) (p a : Addr) : (s.setPc p).memRead a = s.memRead a := rfl
@[simp] theorem State.memRead_setHalt (s : State) (a : Addr) : s.setHalt.memRead a = s.memRead a := rfl
@[simp] theorem State.memRead_fetched (s : State) (a : Addr) : s.fetched.memRead a = s.memRead a := rfl
@[simp] theorem State.memRead_beginCycle (s : State) (a : Addr) : s.beginCycle.memRead a = s.memRead a := rfl
@[simp] theorem State.memRead_raise (s : State) (f : FaultRecord) (a : Addr) : (s.raise f).memRead a = s.memRead a := rfl
@[simp] theorem State.memRead_closeCycle (s : State) (a : Addr) : s.closeCycle.2.memRead a = s.memRead a := rfl
@[simp] theorem State.memRead_branchIf (s : State) (c : Bool) (p a : Addr) : (s.branchIf c p).memRead a = s.memRead a := by
  cases c <;> rfl
@[simp] theorem State.memRead2_beginCycle (s : State) (a : Addr) : s.beginCycle.memRead2 a = s.memRead2 a := rfl

end Sys2Proof.Machine
end

