-- ==== Sys2Proof/Laws/Memory.lean ====
section
/-! SUPPORT. The laws of memory and of the register file: read after write, and the canonical form of memory. -/

namespace Sys2Proof.Machine

/-! ## Reading one cell -/

theorem Memory.read_erase_same (m : List Host.Cell) (a : Nat) : Memory.read (Memory.erase m a) a = Config.unlistedByte := by
  induction m with
  | nil => rfl
  | cons c m ih =>
    obtain ⟨k, v⟩ := c
    by_cases h : k = a
    · simpa [Memory.erase, h] using ih
    · simpa [Memory.erase, Memory.read, h] using ih

theorem Memory.read_erase_other (m : List Host.Cell) {a b : Nat} (h : b ≠ a) :
    Memory.read (Memory.erase m a) b = Memory.read m b := by
  induction m with
  | nil => rfl
  | cons c m ih =>
    obtain ⟨k, v⟩ := c
    by_cases hk : k = a
    · subst hk
      simpa [Memory.erase, Memory.read, Ne.symm h] using ih
    · by_cases hb : k = b
      · simp [Memory.erase, Memory.read, hb, h]
      · simpa [Memory.erase, Memory.read, hk, hb] using ih

theorem Memory.read_insert_same (m : List Host.Cell) (a : Nat) (v : Byte) (h : ∀ c ∈ m, c.1 ≠ a) :
    Memory.read (Memory.insert a v m) a = v := by
  induction m with
  | nil => simp [Memory.insert, Memory.read]
  | cons c m ih =>
    obtain ⟨k, w⟩ := c
    have hk : k ≠ a := h (k, w) (by simp)
    by_cases hl : a < k
    · simp [Memory.insert, Memory.read, hl]
    · simpa [Memory.insert, Memory.read, hl, hk] using ih (fun c hc => h c (by simp [hc]))

theorem Memory.read_insert_other (m : List Host.Cell) {a b : Nat} (v : Byte) (h : b ≠ a) :
    Memory.read (Memory.insert a v m) b = Memory.read m b := by
  induction m with
  | nil => simp [Memory.insert, Memory.read, Ne.symm h]
  | cons c m ih =>
    obtain ⟨k, w⟩ := c
    by_cases hl : a < k
    · simp [Memory.insert, Memory.read, hl, Ne.symm h]
    · simp only [Memory.insert, hl, if_false, Memory.read, ih]

/-- A read after a write to the same cell gives the value written. -/
@[simp] theorem Memory.read_write_same (m : List Host.Cell) (a : Nat) (v : Byte) :
    Memory.read (Memory.write m a v) a = v := by
  unfold Memory.write
  split
  · rename_i h
    rw [Memory.read_erase_same, h]
  · exact Memory.read_insert_same _ a v (by simp [Memory.erase])

/-- A write leaves every other cell alone. -/
theorem Memory.read_write_other (m : List Host.Cell) {a b : Nat} (v : Byte) (h : b ≠ a) :
    Memory.read (Memory.write m a v) b = Memory.read m b := by
  unfold Memory.write
  split
  · exact Memory.read_erase_other m h
  · rw [Memory.read_insert_other _ v h, Memory.read_erase_other m h]

theorem Memory.read_write (m : List Host.Cell) (a b : Nat) (v : Byte) :
    Memory.read (Memory.write m a v) b = if b = a then v else Memory.read m b := by
  split
  · rename_i h; subst h; simp
  · rename_i h; exact Memory.read_write_other m v h

/-! ## The canonical form -/

theorem Memory.wfAbove_mono {lo lo' : Nat} (h : lo' ≤ lo) :
    ∀ {m : List Host.Cell}, Memory.wfAbove lo m = true → Memory.wfAbove lo' m = true
  | [], _ => rfl
  | (k, v) :: m, hw => by
    simp only [Memory.wfAbove, Bool.and_eq_true, decide_eq_true_eq] at hw ⊢
    exact ⟨⟨⟨by omega, hw.1.1.2⟩, hw.1.2⟩, hw.2⟩

theorem Memory.wfAbove_erase (a : Nat) :
    ∀ {m : List Host.Cell} {lo : Nat}, Memory.wfAbove lo m = true → Memory.wfAbove lo (Memory.erase m a) = true
  | [], _, _ => rfl
  | (k, v) :: m, lo, hw => by
    simp only [Memory.wfAbove, Bool.and_eq_true, decide_eq_true_eq] at hw
    have ih := Memory.wfAbove_erase a hw.2
    by_cases hk : k = a
    · simpa [Memory.erase, hk] using Memory.wfAbove_mono (by omega) ih
    · have hcons : Memory.erase ((k, v) :: m) a = (k, v) :: Memory.erase m a := by simp [Memory.erase, hk]
      simp only [hcons, Memory.wfAbove, Bool.and_eq_true, decide_eq_true_eq]
      exact ⟨hw.1, ih⟩

theorem Memory.wfAbove_insert {a : Nat} {v : Byte} (ha : a < Config.memSize) (hv : v ≠ Config.unlistedByte) :
    ∀ {m : List Host.Cell} {lo : Nat}, lo ≤ a → (∀ c ∈ m, c.1 ≠ a) → Memory.wfAbove lo m = true →
      Memory.wfAbove lo (Memory.insert a v m) = true
  | [], lo, hlo, _, _ => by simp [Memory.insert, Memory.wfAbove, hlo, ha, hv]
  | (k, w) :: m, lo, hlo, hne, hw => by
    have hk : k ≠ a := hne (k, w) (by simp)
    simp only [Memory.wfAbove, Bool.and_eq_true, decide_eq_true_eq] at hw
    by_cases hl : a < k
    · have hlist : Memory.wfAbove (a + 1) ((k, w) :: m) = true := by
        simp only [Memory.wfAbove, Bool.and_eq_true, decide_eq_true_eq]
        exact ⟨⟨⟨by omega, hw.1.1.2⟩, hw.1.2⟩, hw.2⟩
      simp only [Memory.insert, hl, if_true]
      rw [Memory.wfAbove]
      simp [hlo, ha, hv, hlist]
    · simp only [Memory.insert, hl, if_false]
      rw [Memory.wfAbove]
      simp only [Bool.and_eq_true, decide_eq_true_eq]
      exact ⟨hw.1, Memory.wfAbove_insert ha hv (by omega) (fun c hc => hne c (by simp [hc])) hw.2⟩

/-- Every write keeps the canonical form of memory. -/
theorem Memory.wf_write {m : List Host.Cell} (a : Nat) (v : Byte) (ha : a < Config.memSize) (hm : Memory.wf m = true) :
    Memory.wf (Memory.write m a v) = true := by
  unfold Memory.wf Memory.write at *
  split
  · exact Memory.wfAbove_erase a hm
  · rename_i hv
    exact Memory.wfAbove_insert ha hv (by omega) (by simp [Memory.erase]) (Memory.wfAbove_erase a hm)

theorem Memory.wf_nil : Memory.wf [] = true := rfl

/-! ## The cells and registers of State -/

theorem State.memRead_setCell (s : State) (a b : Addr) (v : Byte) :
    (s.setCell a v).memRead b = if b = a then v else s.memRead b := by
  simp only [State.memRead, State.setCell_mem, Memory.read_write, BitVec.toNat_inj]

theorem State.memRead_memWrite (s : State) (a b : Addr) (v : Byte) :
    (s.memWrite a v).memRead b = if b = a then v else s.memRead b := by
  simp only [State.memRead, State.memWrite_mem, Memory.read_write, BitVec.toNat_inj]

theorem State.setCell_wf {s : State} (a : Addr) (v : Byte) (h : Memory.wf s.mem = true) :
    Memory.wf (s.setCell a v).mem = true := by
  simpa using Memory.wf_write a.toNat v (by simpa [Config.memSize] using a.isLt) h

theorem State.memWrite_wf {s : State} (a : Addr) (v : Byte) (h : Memory.wf s.mem = true) :
    Memory.wf (s.memWrite a v).mem = true := by
  simpa using Memory.wf_write a.toNat v (by simpa [Config.memSize] using a.isLt) h

theorem State.readReg_writeReg (s : State) (r q : Reg) (v : Byte) :
    (s.writeReg r v).readReg q = if q = r then v else s.readReg q := by
  have h : r.toNat = q.toNat ↔ q = r := by rw [BitVec.toNat_inj]; exact eq_comm
  simp only [State.readReg, State.writeReg_regs, Vector.getElem_set, h]

@[simp] theorem State.readReg_writeReg_same (s : State) (r : Reg) (v : Byte) : (s.writeReg r v).readReg r = v := by
  simp [State.readReg_writeReg]

/-- Writing a register its own value changes nothing. -/
@[simp] theorem State.writeReg_readReg (s : State) (r : Reg) : s.writeReg r (s.readReg r) = s := by
  simp [State.writeReg, State.readReg]

/-! ## Two memories or register files that read alike are the same data -/

theorem State.regs_ext {s t : State} (h : ∀ q, t.readReg q = s.readReg q) : t.regs = s.regs := by
  apply Vector.ext
  intro i hi
  have hq := h (BitVec.ofNat 4 i)
  simpa [State.readReg, Nat.mod_eq_of_lt (show i < 16 from hi)] using hq

end Sys2Proof.Machine
end

