-- ==== Sys2Proof/Laws/Exec.lean ====
section
/-! SUPPORT. Once for `exec`: when it answers a next state, what that state can be; when it stops; and that it is never
refused. -/

namespace Sys2Proof.Machine

theorem storeAddress_eq (xy : Addr) : storeAddress xy = xy := rfl

/-- What an instruction can do: write its destination register, store `x[r]` to one cell (opcode 3 only), branch to a target of
its own (opcodes B and D only), nothing (a branch not taken), or set the halt flag (opcode C only). -/
inductive Effect (i : Instr) (s : State) : State → Prop where
  | reg (d : Reg) (v : Byte) : destinationReg i = some d → Effect i s (s.writeReg d v)
  | cell (r : Reg) (xy : Addr) : i = .store r xy → Effect i s (s.memWrite (storeAddress xy) (s.readReg r))
  | jumpEq (r : Reg) (xy : Addr) : i = .jeq r xy → s.readReg 0#4 = s.readReg r → Effect i s (s.setPc xy)
  | jumpLt (r : Reg) (xy : Addr) : i = .jlt r xy → decodeInt (s.readReg 0#4) < decodeInt (s.readReg r) →
      Effect i s (s.setPc xy)
  | stay (r : Reg) (xy : Addr) : i = .jeq r xy ∨ i = .jlt r xy → Effect i s s
  | halt (ign : BitVec 12) : i = .halt ign → Effect i s s.setHalt

/-- The inversion lemma of `exec` for a next state. -/
theorem exec_next {i : Instr} {s t : State} (h : exec i s = .next t) : Effect i s t := by
  cases i with
  | loadm r xy => cases h; exact .reg _ _ rfl
  | loadi r xy => cases h; exact .reg _ _ rfl
  | store r xy => cases h; exact .cell _ _ rfl
  | move g r d => cases h; exact .reg _ _ rfl
  | addi r a b => cases h; exact .reg _ _ rfl
  | addf r a b =>
    simp only [exec, execAddf] at h
    split at h
    · cases h; exact .reg _ _ rfl
    · cases h
  | or r a b => cases h; exact .reg _ _ rfl
  | and r a b => cases h; exact .reg _ _ rfl
  | xor r a b => cases h; exact .reg _ _ rfl
  | ror r g x => cases h; exact .reg _ _ rfl
  | jeq r xy =>
    cases h
    by_cases hc : s.readReg 0#4 = s.readReg r
    · simpa [State.branchIf, State.condEqual, hc, branchTarget] using Effect.jumpEq (i := .jeq r xy) (s := s) r xy rfl hc
    · simpa [State.branchIf, State.condEqual, hc] using Effect.stay (i := .jeq r xy) (s := s) r xy (.inl rfl)
  | halt g => cases h; exact .halt _ rfl
  | jlt r xy =>
    cases h
    by_cases hc : decodeInt (s.readReg 0#4) < decodeInt (s.readReg r)
    · simpa [State.branchIf, State.condLess, hc, branchTarget] using Effect.jumpLt (i := .jlt r xy) (s := s) r xy rfl hc
    · simpa [State.branchIf, State.condLess, hc] using Effect.stay (i := .jlt r xy) (s := s) r xy (.inr rfl)

/-- The only stop of an instruction: ADDF of an exact zero sum under `STUCK` (40_codec.md R130). -/
theorem exec_fault {i : Instr} {s : State} {r : Fault} (h : exec i s = .fault r) :
    r = .floatZeroStuck ∧ s.floatZeroPolicy = .stuck ∧
      ∃ d a b, i = .addf d a b ∧ (Frac.add (decodeFloat (s.readReg a)) (decodeFloat (s.readReg b))).num = 0 := by
  cases i with
  | addf d a b =>
    simp only [exec, execAddf] at h
    split at h
    · cases h
    · rename_i hn
      cases h
      obtain ⟨h0, hp⟩ := encodeFloat_eq_none_iff.mp hn
      exact ⟨rfl, hp, d, a, b, rfl, h0⟩
  | _ => cases h

/-- No instruction is refused. -/
theorem exec_not_refused {i : Instr} {s : State} {r : Refusal} : exec i s ≠ .refused r := by
  intro h
  cases i with
  | addf d a b =>
    simp only [exec, execAddf] at h
    split at h <;> cases h
  | _ => cases h

/-! ## What no instruction touches (10_state.md R36) -/

theorem Effect.fault {i : Instr} {s t : State} (h : Effect i s t) : t.fault = s.fault := by cases h <;> simp
theorem Effect.fsm {i : Instr} {s t : State} (h : Effect i s t) : t.fsm = s.fsm := by cases h <;> simp
theorem Effect.ir {i : Instr} {s t : State} (h : Effect i s t) : t.ir = s.ir := by cases h <;> simp
theorem Effect.cycles {i : Instr} {s t : State} (h : Effect i s t) : t.cycles = s.cycles := by cases h <;> simp
theorem Effect.floatZeroPolicy {i : Instr} {s t : State} (h : Effect i s t) : t.floatZeroPolicy = s.floatZeroPolicy := by
  cases h <;> simp

/-- Every instruction keeps the canonical form of memory. -/
theorem Effect.wf {i : Instr} {s t : State} (h : Effect i s t) (hm : Memory.wf s.mem = true) : Memory.wf t.mem = true := by
  cases h with
  | cell r xy _ => exact State.memWrite_wf _ _ hm
  | _ => simpa using hm

end Sys2Proof.Machine
end

