-- ==== Sys2Proof/Laws/Cycle.lean ====
section
/-! SUPPORT. Once for the cycle and the step: how they unfold from IDLE, and what they can answer. -/

namespace Sys2Proof.Machine

/-! ## From IDLE -/

theorem fetchExhausted_iff (s : State) : s.fetchExhausted = true ↔ 253 < s.pc.toNat := by
  simp [State.fetchExhausted]; omega

@[simp] theorem beginCycle_fetched (s : State) : s.beginCycle.fetched = s.fetched := rfl

/-- A cycle that starts where the fetch fails (41_fetch_decode.md R151). -/
theorem runCycle_exhausted {s : State} (hi : s.fsm = .idle) (hp : 253 < s.pc.toNat) :
    runCycle s = .next (.fault .memoryExhausted, s.raiseExhausted) := by
  have h : s.beginCycle.fetchExhausted = true := (fetchExhausted_iff s).mpr hp
  simp only [runCycle, hi, fetchPhase, h, if_true]
  rfl

/-- A cycle whose fetch succeeds is the execute phase of the fetched state (41_fetch_decode.md R150). -/
theorem runCycle_fetched {s : State} (hi : s.fsm = .idle) (hp : s.pc.toNat ≤ 253) :
    runCycle s = executePhase s.fetched := by
  have h : s.beginCycle.fetchExhausted = false := by
    rw [Bool.eq_false_iff]; intro h; have := (fetchExhausted_iff s).mp h; omega
  simp [runCycle, hi, fetchPhase, h]

/-- The FSM's transition out of FETCH where the fetch is possible (41_fetch_decode.md R151, R155). -/
theorem fsmTransition_fetch {s : State} (hp : s.pc.toNat ≤ 253) : fsmTransition s.beginCycle = .next (none, s.fetched) := by
  have h : s.beginCycle.fetchExhausted = false := by
    rw [Bool.eq_false_iff]; intro h; have := (fetchExhausted_iff s).mp h; omega
  simp [fsmTransition, h]

theorem executePhase_ok {s : State} {i : Instr} (h : decodeWord s.ir = .ok i) :
    executePhase s = closeOutcome (exec i s) := by
  simp [executePhase, h]

theorem executePhase_error {s : State} {e : Reject} (h : decodeWord s.ir = .error e) :
    executePhase s = .next (.fault .unknownOpcode, s.raiseUnknown) := by
  simp [executePhase, h]

theorem step_of_runCycle (s : State) : step s = stateOf (runCycle s) := rfl

/-! ## What the phases can answer -/

/-- How an execute phase can end with a state: the decoded instruction's effect and the end of the cycle, or the fault of an
unknown opcode. -/
theorem executePhase_next {s t : State} {o : CycleOutcome} (h : executePhase s = .next (o, t)) :
    (∃ i u, decodeWord s.ir = .ok i ∧ exec i s = .next u ∧ (o, t) = u.closeCycle) ∨
      (∃ e, decodeWord s.ir = .error e ∧ o = .fault .unknownOpcode ∧ t = s.raiseUnknown) := by
  unfold executePhase at h
  split at h
  · rename_i i hd
    cases he : exec i s with
    | next u => simp only [he, closeOutcome] at h; cases h; exact .inl ⟨i, u, hd, he, rfl⟩
    | fault r => simp [he, closeOutcome] at h
    | refused r => simp [he, closeOutcome] at h
  · rename_i e hd
    cases h
    exact .inr ⟨e, hd, rfl, rfl⟩

theorem executePhase_not_refused {s : State} {r : Refusal} : executePhase s ≠ .refused r := by
  intro h
  unfold executePhase at h
  split at h
  · rename_i i _
    cases he : exec i s with
    | next u => simp [he, closeOutcome] at h
    | fault r => simp [he, closeOutcome] at h
    | refused r => exact exec_not_refused he
  · cases h

/-- An execute phase that does not complete is ADDF of a zero sum under `STUCK` (40_codec.md R130). -/
theorem executePhase_fault {s : State} {r : Fault} (h : executePhase s = .fault r) :
    r = .floatZeroStuck ∧ s.floatZeroPolicy = .stuck := by
  unfold executePhase at h
  split at h
  · rename_i i _
    cases he : exec i s with
    | next u => simp [he, closeOutcome] at h
    | fault r' => simp only [he, closeOutcome] at h; cases h; exact ⟨(exec_fault he).1, (exec_fault he).2.1⟩
    | refused r' => simp [he, closeOutcome] at h
  · cases h

/-- The ways a cycle can end with a state: the fetch fails, or an execute phase ends (of `s` itself where the cycle
already stood in EXECUTE). -/
theorem runCycle_next {s t : State} {o : CycleOutcome} (h : runCycle s = .next (o, t)) :
    (s.fsm ≠ .faulted) ∧
      ((253 < s.pc.toNat ∧ o = .fault .memoryExhausted ∧ t = s.raiseExhausted) ∨
        (s.pc.toNat ≤ 253 ∧ s.fsm ≠ .execute ∧ executePhase s.fetched = .next (o, t)) ∨
        (s.fsm = .execute ∧ executePhase s = .next (o, t))) := by
  have hfetch : ∀ u : State, u.fetched = s.fetched → u.pc = s.pc → u.raiseExhausted = s.raiseExhausted →
      fetchPhase u = .next (o, t) → s.fsm ≠ .execute →
      (253 < s.pc.toNat ∧ o = .fault .memoryExhausted ∧ t = s.raiseExhausted) ∨
        (s.pc.toNat ≤ 253 ∧ s.fsm ≠ .execute ∧ executePhase s.fetched = .next (o, t)) := by
    intro u hf hpc hr hu hne
    unfold fetchPhase at hu
    split at hu
    · rename_i hx
      cases hu
      exact .inl ⟨by rw [← hpc]; exact (fetchExhausted_iff u).mp hx, rfl, hr⟩
    · rename_i hx
      refine .inr ⟨?_, hne, by rw [← hf]; exact hu⟩
      rw [fetchExhausted_iff, hpc] at hx
      omega
  cases hs : s.fsm with
  | idle =>
    simp only [runCycle, hs] at h
    refine ⟨by simp, ?_⟩
    rcases hfetch s.beginCycle rfl rfl rfl h (by simp [hs]) with h1 | h2
    · exact .inl h1
    · exact .inr (.inl ⟨h2.1, by simp, h2.2.2⟩)
  | fetch =>
    simp only [runCycle, hs] at h
    refine ⟨by simp, ?_⟩
    rcases hfetch s rfl rfl rfl h (by simp [hs]) with h1 | h2
    · exact .inl h1
    · exact .inr (.inl ⟨h2.1, by simp, h2.2.2⟩)
  | execute =>
    simp only [runCycle, hs] at h
    exact ⟨by simp, .inr (.inr ⟨rfl, h⟩)⟩
  | faulted => simp [runCycle, hs] at h

/-- The inversion lemma of `step`: its next state is that of a cycle, with some outcome. -/
theorem step_next {s t : State} (h : step s = .next t) : ∃ o, runCycle s = .next (o, t) := by
  unfold step at h
  cases hr : runCycle s with
  | next p => obtain ⟨o, u⟩ := p; simp only [hr, stateOf] at h; cases h; exact ⟨o, rfl⟩
  | fault r => simp [hr, stateOf] at h
  | refused r => simp [hr, stateOf] at h

/-- A cycle is refused exactly in FAULTED (41_fetch_decode.md R156). -/
theorem runCycle_refused {s : State} {r : Refusal} (h : runCycle s = .refused r) :
    s.fsm = .faulted ∧ r = .faultLatched := by
  have hf : ∀ u, fetchPhase u ≠ .refused r := by
    intro u hu
    unfold fetchPhase at hu
    split at hu
    · cases hu
    · exact executePhase_not_refused hu
  cases hs : s.fsm with
  | idle => simp only [runCycle, hs] at h; exact absurd h (hf _)
  | fetch => simp only [runCycle, hs] at h; exact absurd h (hf _)
  | execute => simp only [runCycle, hs] at h; exact absurd h executePhase_not_refused
  | faulted => simp only [runCycle, hs] at h; cases h; exact ⟨rfl, rfl⟩

/-- A cycle never completes only under `STUCK` (40_codec.md R130). -/
theorem runCycle_fault {s : State} {r : Fault} (h : runCycle s = .fault r) :
    r = .floatZeroStuck ∧ s.floatZeroPolicy = .stuck := by
  have hf : ∀ u : State, u.floatZeroPolicy = s.floatZeroPolicy → fetchPhase u = .fault r →
      r = .floatZeroStuck ∧ s.floatZeroPolicy = .stuck := by
    intro u hp hu
    unfold fetchPhase at hu
    split at hu
    · cases hu
    · exact ⟨(executePhase_fault hu).1, by rw [← hp]; exact (executePhase_fault hu).2⟩
  cases hs : s.fsm with
  | idle => simp only [runCycle, hs] at h; exact hf _ rfl h
  | fetch => simp only [runCycle, hs] at h; exact hf _ rfl h
  | execute => simp only [runCycle, hs] at h; exact executePhase_fault h
  | faulted => simp [runCycle, hs] at h

end Sys2Proof.Machine
end

