-- ==== Sys2Proof/Laws/PerInstr.lean ====
section
/-! SUPPORT. Families of lemmas with one lemma per instruction (LAWS.json). -/

/-- The encoded word is legal, and its opcode digit selects the instruction (30_encoding.md R93, R94). -/
def Sys2Proof.Laws.Encoding.Statement (i : Sys2Proof.Instr) : Prop :=
  Sys2Proof.wordLegal (Sys2Proof.encode i) = true ∧ Sys2Proof.digit0 (Sys2Proof.encode i) = i.opcode

namespace Sys2Proof.Laws.Encoding

/-- An opcode digit 1..D makes a legal word. -/
theorem statement_of_opcode {i : Instr} (k : Digit) (hk : i.opcode = k) (h : 1 ≤ k.toNat ∧ k.toNat ≤ 13) :
    Statement i := by
  subst hk
  refine ⟨?_, encode_digit0 i⟩
  simpa only [wordLegal, ← digit0_toNat, encode_digit0, Bool.and_eq_true, decide_eq_true_eq] using h

theorem loadm (r : Reg) (xy : Addr) : Statement (.loadm r xy) := statement_of_opcode 0x1#4 rfl (by decide)
theorem loadi (r : Reg) (xy : Byte) : Statement (.loadi r xy) := statement_of_opcode 0x2#4 rfl (by decide)
theorem store (r : Reg) (xy : Addr) : Statement (.store r xy) := statement_of_opcode 0x3#4 rfl (by decide)
theorem move (ign : Digit) (r s : Reg) : Statement (.move ign r s) := statement_of_opcode 0x4#4 rfl (by decide)
theorem addi (r s t : Reg) : Statement (.addi r s t) := statement_of_opcode 0x5#4 rfl (by decide)
theorem addf (r s t : Reg) : Statement (.addf r s t) := statement_of_opcode 0x6#4 rfl (by decide)
theorem or (r s t : Reg) : Statement (.or r s t) := statement_of_opcode 0x7#4 rfl (by decide)
theorem and (r s t : Reg) : Statement (.and r s t) := statement_of_opcode 0x8#4 rfl (by decide)
theorem xor (r s t : Reg) : Statement (.xor r s t) := statement_of_opcode 0x9#4 rfl (by decide)
theorem ror (r : Reg) (ign x : Digit) : Statement (.ror r ign x) := statement_of_opcode 0xA#4 rfl (by decide)
theorem jeq (r : Reg) (xy : Addr) : Statement (.jeq r xy) := statement_of_opcode 0xB#4 rfl (by decide)
theorem halt (ign : BitVec 12) : Statement (.halt ign) := statement_of_opcode 0xC#4 rfl (by decide)
theorem jlt (r : Reg) (xy : Addr) : Statement (.jlt r xy) := statement_of_opcode 0xD#4 rfl (by decide)

end Sys2Proof.Laws.Encoding
end

