-- ==== Sys2Proof/Tests/Slice0.lean ====
section
/-! SUPPORT. The model's own tests: expected results are those of 95_test_vectors.md or written out from the spec's encodings.
Below them stand the witnesses: for each statement with hypotheses, a concrete state and operands that meet them. -/

namespace Sys2Proof.Tests

open Sys2Proof Sys2Proof.Machine

/-! ## Helpers -/

/-- The answer is a next state with the property. -/
def nextHas (o : Host.Outcome State Fault Refusal) (p : State → Bool) : Bool :=
  match o with
  | .next t => p t
  | .fault _ => false
  | .refused _ => false

/-- The answer is a stop under the name `floatZeroStuck`. -/
def stops {α : Type} (o : Host.Outcome α Fault Refusal) : Bool :=
  match o with
  | .next _ => false
  | .fault r => r == .floatZeroStuck
  | .refused _ => false

/-- The answer is a refusal because a fault is latched. -/
def refuses {α : Type} (o : Host.Outcome α Fault Refusal) : Bool :=
  match o with
  | .next _ => false
  | .fault _ => false
  | .refused r => r == .faultLatched

/-- The answer is a result and a state with the property. -/
def answerHas {α : Type} (o : Answer α) (p : α → State → Bool) : Bool :=
  match o with
  | .next (r, t) => p r t
  | .fault _ => false
  | .refused _ => false

/-- Power-on with one instruction word placed at 0x10 and some registers set. -/
def st (w : Nat) (rs : List (Reg × Byte)) : State :=
  rs.foldl (fun s c => s.writeReg c.1 c.2) (State.reset.withFetchWord 16 w)

/-- Power-on with `pc` moved and some cells set. -/
def stAt (pc : Addr) (cells : List (Addr × Byte)) : State :=
  (cells.foldl (fun s c => s.setCell c.1 c.2) State.reset).setPc pc

/-- The same machine with the other setting of `FLOAT_ZERO_POLICY`. -/
def stuck (s : State) : State := { s with floatZeroPolicy := .stuck }

/-- One cycle gives register `r` the value `v` and leaves `pc` at 0x12. -/
def givesReg (s : State) (r : Reg) (v : Byte) : Bool := nextHas (step s) (fun t => t.readReg r == v && t.pc == 0x12#8)

/-! ## Well-formedness (30_encoding.md R94, R95, R98) -/

theorem test_word_zero_refused : wordLegal 0x0000#16 = false := by decide
theorem test_word_digit0_refused : wordLegal 0x0FFF#16 = false := by decide
theorem test_word_digitE_refused : wordLegal 0xE123#16 = false := by decide
theorem test_word_digitF_refused : wordLegal 0xF000#16 = false := by decide
theorem test_word_bounds_accepted : wordLegal 0x1000#16 = true ∧ wordLegal 0xDFFF#16 = true := by decide
theorem test_move_ignored_digit_not_assembled : (Instr.move 0xF#4 0x1#4 0x2#4).assembled = false := by decide
theorem test_ror_ignored_digit_not_assembled : (Instr.ror 0x1#4 0xF#4 0x1#4).assembled = false := by decide
theorem test_halt_ignored_digits_not_assembled : (Instr.halt 0xABC#12).assembled = false := by decide
theorem test_plain_spellings_assembled :
    (Instr.move 0x0#4 0x1#4 0x2#4).assembled = true ∧ (Instr.ror 0x1#4 0x0#4 0x1#4).assembled = true ∧
      (Instr.halt 0x000#12).assembled = true := by decide

/-! ## Decoding: words written out digit by digit from 30_encoding.md R91 and R93 -/

theorem test_decode_loadm : decodeTableWord 16 0b0001_0001_0010_0000 = some (.loadm 0x1#4 0x20#8) := by decide
theorem test_decode_loadi : decodeTableWord 16 0b0010_1010_1111_1110 = some (.loadi 0xA#4 0xFE#8) := by decide
theorem test_decode_store : decodeTableWord 16 0b0011_0010_0000_0001 = some (.store 0x2#4 0x01#8) := by decide
theorem test_decode_move : decodeTableWord 16 0b0100_1111_0001_0010 = some (.move 0xF#4 0x1#4 0x2#4) := by decide
theorem test_decode_addi : decodeTableWord 16 0b0101_0011_0001_0010 = some (.addi 0x3#4 0x1#4 0x2#4) := by decide
theorem test_decode_addf : decodeTableWord 16 0b0110_0010_0000_0001 = some (.addf 0x2#4 0x0#4 0x1#4) := by decide
theorem test_decode_or : decodeTableWord 16 0b0111_1000_0100_0010 = some (.or 0x8#4 0x4#4 0x2#4) := by decide
theorem test_decode_and : decodeTableWord 16 0b1000_0001_0010_0100 = some (.and 0x1#4 0x2#4 0x4#4) := by decide
theorem test_decode_xor : decodeTableWord 16 0b1001_0100_1000_0001 = some (.xor 0x4#4 0x8#4 0x1#4) := by decide
theorem test_decode_ror : decodeTableWord 16 0b1010_0001_1111_1100 = some (.ror 0x1#4 0xF#4 0xC#4) := by decide
theorem test_decode_jeq : decodeTableWord 16 0b1011_0001_0010_0000 = some (.jeq 0x1#4 0x20#8) := by decide
theorem test_decode_halt : decodeTableWord 16 0b1100_1010_1011_1100 = some (.halt 0xABC#12) := by decide
theorem test_decode_jlt : decodeTableWord 16 0b1101_0011_0001_1110 = some (.jlt 0x3#4 0x1E#8) := by decide
theorem test_decode_short_row : decodeTableWord 8 0x4F12 = none := by decide
theorem test_decode_truncated : decodeBytes [0x20#8] = .error .truncated := by decide
/-- 95_test_vectors.md S5: the high byte is the first cell. -/
theorem test_encode_bytes : encodeBytes (.loadi 0x0#4 0x12#8) = [0x20#8, 0x12#8] := by decide
/-- 30_encoding.md R98, R100. -/
theorem test_disassemble :
    disassemble (.store 0x3#4 0x00#8) = "STORE R3, [0x00]".toList ∧ disassemble (.loadi 0x0#4 0x12#8) = "LOADI R0, 0x12".toList := by
  decide

/-! ## One step of each instruction (95_test_vectors.md parts 2.4 to 2.10) -/

/-- T1 with its cell at 0x20. -/
theorem test_loadm : givesReg ((st 0x1120 []).setCell 0x20#8 0x05#8) 0x1#4 0x05#8 = true := by decide
/-- T10: the instruction reads its own first byte. -/
theorem test_loadm_own_byte : givesReg (st 0x1110 [(0x1#4, 0x07#8)]) 0x1#4 0x11#8 = true := by decide
/-- T3. -/
theorem test_loadi : givesReg (st 0x2AFF []) 0xA#4 0xFF#8 = true := by decide
/-- T4. -/
theorem test_store_screen :
    nextHas (step (st 0x3200 [(0x2#4, 0x41#8)])) (fun t => t.memRead 0x00#8 == 0x41#8 && t.out == [0x41#8]) = true := by decide
/-- T5. -/
theorem test_store_top :
    nextHas (step (st 0x32FF [(0x2#4, 0x41#8)])) (fun t => t.memRead 0xFF#8 == 0x41#8 && t.out == []) = true := by decide
/-- T7. -/
theorem test_move : givesReg (st 0x4F12 [(0x1#4, 0xC0#8)]) 0x2#4 0xC0#8 = true := by decide
/-- T8. -/
theorem test_move_direction : givesReg (st 0x4021 [(0x1#4, 0xC0#8)]) 0x1#4 0x00#8 = true := by decide
/-- Part 2.5, 80 + FF. -/
theorem test_addi_wraps : givesReg (st 0x5312 [(0x1#4, 0x80#8), (0x2#4, 0xFF#8)]) 0x3#4 0x7F#8 = true := by decide
/-- Part 2.5, the aliasing row. -/
theorem test_addi_alias : givesReg (st 0x5111 [(0x1#4, 0x05#8)]) 0x1#4 0x0A#8 = true := by decide
/-- Part 2.6, 6A + C3: mixed signs, truncated. -/
theorem test_addf_truncates : givesReg (st 0x6312 [(0x1#4, 0x6A#8), (0x2#4, 0xC3#8)]) 0x3#4 0x65#8 = true := by decide
/-- Part 2.6, 01 + 80: the exponent -8 wraps to 4. -/
theorem test_addf_wraps : givesReg (st 0x6312 [(0x1#4, 0x01#8), (0x2#4, 0x80#8)]) 0x3#4 0x40#8 = true := by decide
/-- Part 2.7. -/
theorem test_or : givesReg (st 0x7312 [(0x1#4, 0xA5#8), (0x2#4, 0x0F#8)]) 0x3#4 0xAF#8 = true := by decide
/-- Part 2.7. -/
theorem test_and : givesReg (st 0x8312 [(0x1#4, 0xA5#8), (0x2#4, 0x0F#8)]) 0x3#4 0x05#8 = true := by decide
/-- Part 2.7. -/
theorem test_xor : givesReg (st 0x9312 [(0x1#4, 0xA5#8), (0x2#4, 0x0F#8)]) 0x3#4 0xAA#8 = true := by decide
/-- Part 2.8, 54 by 3. -/
theorem test_ror : givesReg (st 0xA103 [(0x1#4, 0x54#8)]) 0x1#4 0x8A#8 = true := by decide
/-- Part 2.8, 96 by C. -/
theorem test_ror_above_seven : givesReg (st 0xA10C [(0x1#4, 0x96#8)]) 0x1#4 0x69#8 = true := by decide
/-- J1. -/
theorem test_jeq_taken :
    nextHas (step (st 0xB120 [(0x0#4, 0x05#8), (0x1#4, 0x05#8)])) (fun t => t.pc == 0x20#8) = true := by decide
/-- J2. -/
theorem test_jeq_not_taken :
    nextHas (step (st 0xB120 [(0x0#4, 0x05#8), (0x1#4, 0x04#8)])) (fun t => t.pc == 0x12#8) = true := by decide
/-- J12. -/
theorem test_halt :
    answerHas (runCycle (st 0xCABC [])) (fun o t => o == .halted && t.pc == 0x12#8 && !t.haltFlag) = true := by decide
/-- J5. -/
theorem test_jlt_signed :
    nextHas (step (st 0xD120 [(0x0#4, 0x80#8), (0x1#4, 0x7F#8)])) (fun t => t.pc == 0x20#8) = true := by decide
/-- J7. -/
theorem test_jlt_strict :
    nextHas (step (st 0xD120 [(0x0#4, 0x05#8), (0x1#4, 0x05#8)])) (fun t => t.pc == 0x12#8) = true := by decide
/-- FD1. -/
theorem test_fetch_last : nextHas (step (stAt 0xFD#8 [(0xFD#8, 0x40#8)])) (fun t => t.pc == 0xFF#8 && t.fault == none) = true := by
  decide
/-- FD2. -/
theorem test_fetch_exhausted :
    nextHas (step (stAt 0xFE#8 [])) (fun t => t.pc == 0xFE#8 && t.fault == some (.memoryExhausted 0xFE#8)) = true := by decide
/-- FD6, and the refusal after it. -/
theorem test_unknown_opcode :
    nextHas (step (st 0xE123 [])) (fun t =>
      t.pc == 0x12#8 && t.fault == some (.unknownOpcode 0xE123#16 0x10#8) && refuses (step t)) = true := by
  decide

/-! ## The codec (95_test_vectors.md 2.1 to 2.3) -/

theorem test_int_codec : decodeInt 0xFB#8 = -5 ∧ encodeInt (-129) = 0x7F#8 := by decide
theorem test_float_fields : decodeFloat 0x25#8 = ⟨84, 256⟩ := by decide
theorem test_float_third : encodeFloat .encode00 ⟨1, 3⟩ = some 0x25#8 := by decide
theorem test_float_exponent_wraps_down : encodeFloat .encode00 ⟨3, 512⟩ = some 0x48#8 := by decide
theorem test_float_exponent_wraps_up : encodeFloat .encode00 ⟨-31, 1⟩ = some 0x8F#8 := by decide

/-! ## Host commands (95_test_vectors.md 2.11 and part 3) -/

/-- H1. -/
theorem test_load_lowercase :
    (State.reset.loadProgram "c000".toList "10".toList).2.memRead 0x10#8 = 0xC0#8 := by decide
/-- H4. -/
theorem test_load_malformed_token :
    (State.reset.loadProgram "C000 12G4".toList "10".toList).2.fault = some (.malformedToken (.token 1) "12G4".toList) := by decide
/-- S6: the side effect of cell 0 during a load, and the raw-hex stream. -/
theorem test_load_screen :
    (State.reset.loadProgram "4865".toList "00".toList).2.out = [0x48#8] ∧ renderHex [0x48#8] = "48 ".toList ∧
      renderAscii [0x48#8] = ['H'] := by decide
/-- P5: a run that ends in MemoryExhausted. -/
theorem test_run_to_the_end :
    answerHas (runUntilHaltOrLimit 128 (State.reset.loadProgram "B0FE".toList "10".toList).2)
      (fun r t => r == .fault .memoryExhausted 2 && t.pc == 0xFE#8 && t.cycles == 2) = true := by decide

/-! ## Witnesses: encoding -/

theorem witness_DecodedWordsEncodeBack : decodeWord 0x4F12#16 = .ok (.move 0xF#4 0x1#4 0x2#4) := by decide

theorem witness_MaskSelectsTheInstruction :
    (decodeWord 0x1FFF#16 = .ok (.loadm 0xF#4 0xFF#8) ∧ 0x1FFF#16 &&& 0xF000#16 = (0x1#4 ++ 0#12 : Word)) ∧
      (decodeWord 0xD000#16 = .ok (.jlt 0x0#4 0x00#8) ∧ 0xD000#16 &&& 0xF000#16 = (0xD#4 ++ 0#12 : Word)) := by decide

theorem witness_IgnoredDigitsHaveNoEffect :
    (1 ≤ (digit0 0x1000#16).toNat ∧ (digit0 0x1000#16).toNat ≤ 13) ∧
      (1 ≤ (digit0 0xDFFF#16).toNat ∧ (digit0 0xDFFF#16).toNat ≤ 13) := by decide

/-! ## Witnesses: the instructions -/

theorem witness_LoadmLoadsTheCell : 0x1ABC#16 &&& 0xF000#16 = 0x1000#16 := by decide
theorem witness_LoadiLoadsTheLiteral : 0x2ABC#16 &&& 0xF000#16 = 0x2000#16 := by decide
theorem witness_StoreWritesTheCell :
    0x3ABC#16 &&& 0xF000#16 = 0x3000#16 ∧ storeAddress 0x00#8 = 0x00#8 ∧ storeAddress 0xFF#8 = 0xFF#8 := by decide
theorem witness_MoveCopiesTheRegister : 0x4ABC#16 &&& 0xF000#16 = 0x4000#16 := by decide
theorem witness_AddiAddsModulo256 : 0x5ABC#16 &&& 0xF000#16 = 0x5000#16 := by decide

/-- The value of a byte is its sign, exponent and fraction put in the formula (used by the witnesses below). -/
theorem floatValue_fields {b : Byte} {s : Bool} {e m : Nat} (hs : floatSign b = s) (he : floatExp b = e) (hm : floatFrac b = m) :
    floatValue b = (if s then -1 else 1) * (1 + (m : ℚ) / 16) * (2 : ℚ) ^ ((e : ℤ) - 4) := by
  subst hs he hm; rfl

/-- Byte 40 is 1. -/
theorem floatValue_40 : floatValue 0x40#8 = 1 := by
  rw [floatValue_fields (s := false) (e := 4) (m := 0) (by decide) (by decide) (by decide)]; norm_num

/-- Byte C0 is -1. -/
theorem floatValue_C0 : floatValue 0xC0#8 = -1 := by
  rw [floatValue_fields (s := true) (e := 4) (m := 0) (by decide) (by decide) (by decide)]; norm_num

/-- Its three clauses: a sum that is not zero, and a zero sum under each setting. -/
theorem witness_AddfAddsExactly :
    0x6ABC#16 &&& 0xF000#16 = 0x6000#16 ∧
      (let s := st 0x6312 [(0x1#4, 0x40#8), (0x2#4, 0x40#8)]
       floatValue (s.readReg 0x1#4) + floatValue (s.readReg 0x2#4) ≠ 0) ∧
      (let s := st 0x6312 [(0x1#4, 0x40#8), (0x2#4, 0xC0#8)]
       floatValue (s.readReg 0x1#4) + floatValue (s.readReg 0x2#4) = 0 ∧ s.floatZeroPolicy = .encode00) ∧
      (let s := stuck (st 0x6312 [(0x1#4, 0x40#8), (0x2#4, 0xC0#8)])
       floatValue (s.readReg 0x1#4) + floatValue (s.readReg 0x2#4) = 0 ∧ s.floatZeroPolicy = .stuck) := by
  refine ⟨by decide, ?_, ⟨?_, by decide⟩, ⟨?_, by decide⟩⟩
  · show floatValue 0x40#8 + floatValue 0x40#8 ≠ 0
    rw [floatValue_40]; norm_num
  · show floatValue 0x40#8 + floatValue 0xC0#8 = 0
    rw [floatValue_40, floatValue_C0]; norm_num
  · show floatValue 0x40#8 + floatValue 0xC0#8 = 0
    rw [floatValue_40, floatValue_C0]; norm_num

theorem witness_BitwiseOpsWorkBitByBit :
    0x7ABC#16 &&& 0xF000#16 = 0x7000#16 ∧ 0x8ABC#16 &&& 0xF000#16 = 0x8000#16 ∧ 0x9ABC#16 &&& 0xF000#16 = 0x9000#16 ∧
      0 < 8 ∧ 7 < 8 := by decide

theorem witness_RorRotatesInPlace : 0xAABC#16 &&& 0xF000#16 = 0xA000#16 ∧ 0 < 8 ∧ 7 < 8 := by decide

theorem witness_JeqBranchesIfEqual :
    0xBABC#16 &&& 0xF000#16 = 0xB000#16 ∧
      (let s := st 0xB120 [(0x0#4, 0x05#8), (0x1#4, 0x05#8)]; s.readReg 0x0#4 = s.readReg 0x1#4) ∧
      (let s := st 0xB120 [(0x0#4, 0x05#8), (0x1#4, 0x04#8)]; s.readReg 0x0#4 ≠ s.readReg 0x1#4) := by decide

theorem witness_JltBranchesIfLess :
    0xDABC#16 &&& 0xF000#16 = 0xD000#16 ∧
      (let s := st 0xD120 [(0x0#4, 0x80#8), (0x1#4, 0x7F#8)]; (s.readReg 0x0#4).toInt < (s.readReg 0x1#4).toInt) ∧
      (let s := st 0xD120 [(0x0#4, 0x05#8), (0x1#4, 0x05#8)]; (s.readReg 0x1#4).toInt ≤ (s.readReg 0x0#4).toInt) := by decide

/-- At the highest address a fetch can read. -/
theorem witness_HaltEndsTheCycleHalted :
    0xCABC#16 &&& 0xF000#16 = 0xC000#16 ∧
      (let s := stAt 0xFD#8 [(0xFD#8, 0xCA#8), (0xFE#8, 0xBC#8)]
       s.fsm = .idle ∧ s.pc.toNat ≤ 253 ∧ s.memRead2 s.pc &&& 0xF000#16 = 0xC000#16) := by decide

/-! ## Witnesses: the codec -/

theorem witness_IntCodecIsTwosComplement :
    ((-128 : Int) ≤ -128 ∧ (-128 : Int) ≤ 127) ∧ ((-128 : Int) ≤ 127 ∧ (127 : Int) ≤ 127) := by decide

theorem witness_EncodeFloatNormalises : (⟨-31, 1⟩ : Frac).num ≠ 0 ∧ 0 < (⟨-31, 1⟩ : Frac).den := by decide

theorem witness_EncodingDependsOnTheValueOnly :
    0 < (⟨1, 2⟩ : Frac).den ∧ 0 < (⟨2, 4⟩ : Frac).den ∧ (⟨1, 2⟩ : Frac).value = (⟨2, 4⟩ : Frac).value :=
  ⟨by decide, by decide, by norm_num [Frac.value]⟩

theorem witness_FloatZeroFollowsThePolicy :
    let s := stuck (st 0x6312 [(0x1#4, 0x40#8), (0x2#4, 0xC0#8)])
    s.fsm = .idle ∧ s.pc.toNat ≤ 253 ∧ s.floatZeroPolicy = .stuck ∧
      decodeWord (s.memRead2 s.pc) = .ok (.addf 0x3#4 0x1#4 0x2#4) ∧
      floatValue (s.readReg 0x1#4) + floatValue (s.readReg 0x2#4) = 0 :=
  ⟨by decide, by decide, by decide, by decide, witness_AddfAddsExactly.2.2.2.1⟩

/-! ## Witnesses: memory and the output stream -/

theorem witness_MemWriteSetsOneCell : ((-1 : Int) < 0 ∨ (255 : Int) < -1) ∧ ((256 : Int) < 0 ∨ (255 : Int) < 256) := by decide
theorem witness_MemReadGivesTheCell : ((-1 : Int) < 0 ∨ (255 : Int) < -1) ∧ ((256 : Int) < 0 ∨ (255 : Int) < 256) := by decide

/-- A store run by a cycle at the highest `pc`, to the bounds of the two ranges of stored cells: 0x00 and 0xFD, and 0x01 and 0xFE. -/
theorem witness_StoresAreSeenByTheNextFetch :
    nextHas (exec (.store 0x1#4 0xFD#8) State.reset) (fun _ => true) = true ∧
      (stAt 0xFD#8 [(0xFD#8, 0x31#8)]).fsm = .idle ∧ (stAt 0xFD#8 [(0xFD#8, 0x31#8)]).pc.toNat ≤ 253 ∧
      decodeWord ((stAt 0xFD#8 [(0xFD#8, 0x31#8)]).memRead2 0xFD#8) = .ok (.store 0x1#4 0x00#8) ∧
      decodeWord ((st 0x31FD []).memRead2 0x10#8) = .ok (.store 0x1#4 0xFD#8) ∧
      decodeWord ((st 0x3101 []).memRead2 0x10#8) = .ok (.store 0x1#4 0x01#8) ∧
      decodeWord ((st 0x31FE []).memRead2 0x10#8) = .ok (.store 0x1#4 0xFE#8) ∧
      ((storeAddress 0x00#8).toNat ≤ 253 ∧ (storeAddress 0xFD#8).toNat ≤ 253) ∧
      (1 ≤ (storeAddress 0x01#8).toNat ∧ (storeAddress 0x01#8).toNat ≤ 254) ∧
      (1 ≤ (storeAddress 0xFE#8).toNat ∧ (storeAddress 0xFE#8).toNat ≤ 254) := by decide

/-- A step that stores to cell 0, and one that does not. -/
theorem witness_StepsOnlyAppendOutput :
    ((st 0x3200 [(0x2#4, 0x41#8)]).fsm = .idle ∧ nextHas (step (st 0x3200 [(0x2#4, 0x41#8)])) (fun t => t.out != []) = true) ∧
      ((st 0x32FF []).fsm = .idle ∧ nextHas (step (st 0x32FF [])) (fun t => t.out == []) = true) := by decide

theorem witness_OnlyALoadEmptiesOutput :
    answerHas (hostCommand .runOneCycle (st 0x3200 [])) (fun _ t => t.out == [0x00#8]) = true ∧
      answerHas (hostCommand (.loadProgram [] none) ((st 0x3200 []).emit 0x41#8)) (fun _ t => t.out == []) = true := by decide

/-! ## Witnesses: the rules over all instructions -/

/-- A register form (MOVE, whose destination is d3), stores at and beside cell 0, both branches, and HALT. -/
theorem witness_AtMostOneRegisterOrCell :
    (nextHas (exec (.move 0xF#4 0x1#4 0x2#4) State.reset) (fun _ => true) = true ∧
      destinationReg (.move 0xF#4 0x1#4 0x2#4) = some 0x2#4) ∧
    (nextHas (exec (.store 0x1#4 0x00#8) State.reset) (fun _ => true) = true ∧ destinationReg (.store 0x1#4 0x00#8) = none) ∧
    (nextHas (exec (.store 0x1#4 0x01#8) State.reset) (fun _ => true) = true ∧ storeAddress 0x01#8 ≠ 0x00#8) ∧
    nextHas (exec (.jeq 0x0#4 0x20#8) State.reset) (fun _ => true) = true ∧
    nextHas (exec (.jlt 0x0#4 0x20#8) State.reset) (fun _ => true) = true ∧
    nextHas (exec (.halt 0x000#12) State.reset) (fun _ => true) = true := by decide

theorem witness_InstructionsKeepControlState :
    nextHas (exec (.halt 0x000#12) State.reset) (fun t => t.haltFlag) = true ∧
      nextHas (exec (.addf 0x1#4 0x2#4 0x3#4) State.reset) (fun t => !t.haltFlag) = true := by decide

/-- Two states that differ in what no instruction reads, with a next state and with a stop. -/
theorem witness_InstructionsDoNotReadControlState :
    let s := st 0x6312 [(0x1#4, 0x40#8), (0x2#4, 0xC0#8)]
    let s' : State := { s with out := [0x41#8], cycles := 5, ir := 0xFFFF#16, haltFlag := true }
    (s'.regs = s.regs ∧ s'.pc = s.pc ∧ s'.mem = s.mem ∧ s'.floatZeroPolicy = s.floatZeroPolicy) ∧
      nextHas (exec (.addf 0x3#4 0x1#4 0x2#4) s) (fun _ => true) = true ∧
      stops (exec (.addf 0x3#4 0x1#4 0x2#4) (stuck s)) = true := by decide

/-! ## Witnesses: the cycle and the FSM -/

/-- At the highest address a fetch can read: an instruction that completes, and one that stops. -/
theorem witness_StepRunsTheDecodedInstruction :
    let s := stAt 0xFD#8 [(0xFD#8, 0x20#8), (0xFE#8, 0x12#8)]
    let u := stuck (st 0x6312 [(0x1#4, 0x40#8), (0x2#4, 0xC0#8)])
    (s.fsm = .idle ∧ s.pc.toNat ≤ 253 ∧
      decodeWord (s.memRead s.pc ++ s.memRead (s.pc + 1#8) : Word) = .ok (.loadi 0x0#4 0x12#8) ∧
      nextHas (exec (.loadi 0x0#4 0x12#8) s.fetched) (fun _ => true) = true) ∧
    (u.fsm = .idle ∧ u.pc.toNat ≤ 253 ∧
      decodeWord (u.memRead u.pc ++ u.memRead (u.pc + 1#8) : Word) = .ok (.addf 0x3#4 0x1#4 0x2#4) ∧
      stops (exec (.addf 0x3#4 0x1#4 0x2#4) u.fetched) = true) := by decide

theorem witness_FetchPastTheEndFaults :
    ((stAt 0xFE#8 []).fsm = .idle ∧ 255 < (stAt 0xFE#8 []).pc.toNat + 2) ∧
      ((stAt 0xFF#8 []).fsm = .idle ∧ 255 < (stAt 0xFF#8 []).pc.toNat + 2) := by decide

theorem witness_UnknownOpcodeFaults :
    ((stAt 0xFD#8 []).fsm = .idle ∧ (stAt 0xFD#8 []).pc.toNat ≤ 253 ∧ digit0 ((stAt 0xFD#8 []).memRead2 0xFD#8) = 0x0#4) ∧
      ((st 0xE000 []).fsm = .idle ∧ (st 0xE000 []).pc.toNat ≤ 253 ∧ digit0 ((st 0xE000 []).memRead2 0x10#8) = 0xE#4) ∧
      ((st 0xFFFF []).fsm = .idle ∧ (st 0xFFFF []).pc.toNat ≤ 253 ∧ digit0 ((st 0xFFFF []).memRead2 0x10#8) = 0xF#4) := by decide

/-- A failed fetch, a plain step, and each branch taken. -/
theorem witness_OnlyFetchAndBranchesWritePc :
    nextHas (step (stAt 0xFE#8 [])) (fun t => t.pc == 0xFE#8) = true ∧
      nextHas (step (stAt 0xFD#8 [(0xFD#8, 0x40#8)])) (fun t => t.pc == 0xFF#8) = true ∧
      nextHas (step (st 0xB020 [])) (fun t => t.pc == 0x20#8) = true ∧
      nextHas (step (st 0xD120 [(0x1#4, 0x01#8)])) (fun t => t.pc == 0x20#8) = true := by decide

/-- A state for each row of the table. -/
theorem witness_CycleFollowsTheFsmTable :
    (State.reset).fsm = .idle ∧
    ((stAt 0xFE#8 []).beginCycle.fsm = .fetch ∧ 255 < (stAt 0xFE#8 []).beginCycle.pc.toNat + 2) ∧
    ((stAt 0xFD#8 []).beginCycle.fsm = .fetch ∧ (stAt 0xFD#8 []).beginCycle.pc.toNat + 2 ≤ 255) ∧
    ((st 0xE123 []).fetched.fsm = .execute ∧ wordLegal (st 0xE123 []).fetched.ir = false) ∧
    ((st 0xC000 []).fetched.fsm = .execute ∧ decodeWord (st 0xC000 []).fetched.ir = .ok (.halt 0x000#12) ∧
      nextHas (exec (.halt 0x000#12) (st 0xC000 []).fetched) (fun t => t.haltFlag) = true) ∧
    (let u := (stuck (st 0x6312 [(0x1#4, 0x40#8), (0x2#4, 0xC0#8)])).fetched
     u.fsm = .execute ∧ decodeWord u.ir = .ok (.addf 0x3#4 0x1#4 0x2#4) ∧
      stops (exec (.addf 0x3#4 0x1#4 0x2#4) u) = true) ∧
    (stAt 0xFE#8 []).raiseExhausted.fsm = .faulted ∧
    answerHas (fsmTransition State.reset) (fun o _ => o == none) = true ∧
    answerHas (fsmTransition (st 0xC000 []).fetched) (fun o _ => o == some .halted) = true := by decide

theorem witness_PlacedWordIsFetched : 0 < 2 ^ 16 ∧ 65535 < 2 ^ 16 := by decide

/-! ## Witnesses: faults -/

theorem witness_CycleFaultsArePrecise :
    ((stAt 0xFE#8 []).fsm = .idle ∧ answerHas (runCycle (stAt 0xFE#8 [])) (fun o _ => o == .fault .memoryExhausted) = true) ∧
      (State.reset.fsm = .idle ∧ answerHas (runCycle State.reset) (fun o _ => o == .fault .unknownOpcode) = true) := by decide

/-- A state in FAULTED, and a load that clears it. -/
theorem witness_FaultedRefusesToRun :
    (stAt 0xFE#8 []).raiseExhausted.fsm = .faulted ∧
      answerHas (hostCommand (.loadProgram "C000".toList none) (stAt 0xFE#8 []).raiseExhausted)
        (fun r _ => r == .load .loaded) = true := by decide

/-- In FAULTED: commands that keep the fault, a load that clears it, and a load that replaces it. -/
theorem witness_OnlyALoadReplacesAFault :
    let s := (stAt 0xFE#8 []).raiseExhausted
    s.fsm = .faulted ∧
      answerHas (hostCommand .runOneCycle s) (fun _ t => t.fault == s.fault) = true ∧
      answerHas (hostCommand (.runUntilHaltOrLimit none) s) (fun _ t => t.fault == s.fault) = true ∧
      answerHas (hostCommand (.loadProgram [] none) s) (fun _ t => t.fault == none) = true ∧
      answerHas (hostCommand (.loadProgram "C00".toList none) s)
        (fun r t => r == .load (.fault .malformedToken) && t.fault != s.fault) = true := by decide

theorem witness_OutOfRangeIsOnlyAReply :
    (((-1 : Int) < 0 ∨ (15 : Int) < -1) ∧ ((16 : Int) < 0 ∨ (15 : Int) < 16)) ∧
      (((-1 : Int) < 0 ∨ (255 : Int) < -1) ∧ ((256 : Int) < 0 ∨ (255 : Int) < 256)) ∧
      answerHas (hostCommand (.getRegister 16) State.reset) (fun r t => r == .outOfRange ⟨.register, 16⟩ && t == State.reset) = true ∧
      answerHas (hostCommand (.getMemory (-1)) State.reset) (fun r t => r == .outOfRange ⟨.memory, -1⟩ && t == State.reset) = true ∧
      answerHas (hostCommand (.setProgramCounter 256) State.reset) (fun r t => r == .outOfRange ⟨.pc, 256⟩ && t == State.reset) = true := by decide

/-! ## Witnesses: host commands -/

theorem witness_SetProgramCounterSetsPcOnly : ((-1 : Int) < 0 ∨ (255 : Int) < -1) ∧ ((256 : Int) < 0 ∨ (255 : Int) < 256) := by
  decide

/-- An output stream with a byte below 0x80 at its first and last place. -/
theorem witness_SnapshotShowsTheState :
    let s := (State.reset.emit 0x00#8).emit 0x7F#8
    s.out[0]? = some 0x00#8 ∧ s.out[1]? = some 0x7F#8 ∧ (0x7F#8).toNat < 128 ∧ (0x00#8).toNat < 128 := by decide

/-- A run for each way to end, from states that are not in FAULTED. -/
theorem witness_RunsEndInOneOfThreeWays :
    State.reset.fsm ≠ .faulted ∧ (st 0xC000 []).fsm ≠ .faulted ∧
      answerHas (runUntilHaltOrLimit 1 (st 0xC000 [])) (fun r _ => r == .halted 1) = true ∧
      answerHas (runUntilHaltOrLimit 1 State.reset) (fun r _ => r == .fault .unknownOpcode 1) = true ∧
      answerHas (runUntilHaltOrLimit 0 State.reset) (fun r _ => r == .limit 0) = true ∧
      stops (runUntilHaltOrLimit 1 (stuck (st 0x6312 [(0x1#4, 0x40#8), (0x2#4, 0xC0#8)]))) = true := by decide

/-- A run of no cycle, of one cycle that halts, and of two of which the first is CONTINUE. -/
theorem witness_RunsAreRepeatedSteps :
    (stAt 0xFE#8 []).raiseExhausted.fsm = .faulted ∧ State.reset.fsm ≠ .faulted ∧
      answerHas (runUntilHaltOrLimit 0 State.reset) (fun r _ => r == .limit 0) = true ∧
      answerHas (runUntilHaltOrLimit 128 (st 0xC000 [])) (fun r _ => r == .halted 1) = true ∧
      answerHas (runUntilHaltOrLimit 2 ((st 0x4000 []).setCell 0x12#8 0xC0#8)) (fun r _ => r == .halted 2) = true := by decide

/-! ## Witnesses: loading -/

/-- A program that just fits: one word at 0xFE. -/
theorem witness_LoadPlacesTheProgram :
    parseStart "FE".toList = some 0xFE#8 ∧ tokenWords (tokens " c000\n".toList) = some [0xC000#16] ∧
      (0xFE#8).toNat + 2 * [0xC000#16].length ≤ 256 ∧
      (State.reset.loadProgram " c000\n".toList "FE".toList).1 = .loaded := by decide

/-- H8 of 95_test_vectors.md: the second token has no room. -/
theorem witness_LoadOverflowStopsTheLoad :
    parseStart "FD".toList = some 0xFD#8 ∧ tokens "1111 2222".toList = ["1111".toList] ++ "2222".toList :: [] ∧
      tokenWords ["1111".toList] = some [0x1111#16] ∧ parseWord ("2222".toList.map upperChar) = some 0x2222#16 ∧
      [0x1111#16].length = (256 - (0xFD#8).toNat) / 2 := by decide

/-- H4 of 95_test_vectors.md. -/
theorem witness_MalformedTokenStopsTheLoad :
    parseStart "10".toList = some 0x10#8 ∧ tokens "C000 12G4".toList = ["C000".toList] ++ "12G4".toList :: [] ∧
      tokenWords ["C000".toList] = some [0xC000#16] ∧ parseWord ("12G4".toList.map upperChar) = none ∧
      (0x10#8).toNat + 2 * [0xC000#16].length ≤ 256 := by decide

/-- H2 of 95_test_vectors.md: a lowercase start address is no start address. -/
theorem witness_MalformedStartChangesNothingElse : ¬ ∃ a : Addr, "1a".toList = hexText a := by
  rintro ⟨a, h⟩
  have no_lowercase : ∀ d : Digit, 'a' ≠ hexDigit d := by decide
  exact no_lowercase _ (List.cons.inj (List.cons.inj h).2).1

/-- White space at the front, two runs with white space after them, and a last run; and the characters beside `a` and `z`. -/
theorem witness_TokensAreMaximalRuns :
    ((96 < 97 ∨ 122 < 96) ∧ (123 < 97 ∨ 122 < 123)) ∧ (∀ c ∈ [' ', '\t'], isSpace c = true) ∧
      (∀ p ∈ [(['2', '0'], ['\n']), (['B'], [' ', ' '])],
        p.1 ≠ [] ∧ (∀ c ∈ p.1, isSpace c = false) ∧ p.2 ≠ [] ∧ ∀ c ∈ p.2, isSpace c = true) ∧
      ∀ c ∈ ['C'], isSpace c = false := by simp [isSpace]

/-! ## Witnesses: invariants -/

/-- A state with an instruction placed and registers set meets the invariant, and so does one in FAULTED. -/
theorem witness_StepsKeepInvariant :
    (st 0x3200 [(0x2#4, 0x41#8)]).Inv ∧ nextHas (step (st 0x3200 [(0x2#4, 0x41#8)])) (fun _ => true) = true ∧
      (stAt 0xFE#8 []).raiseExhausted.Inv := by
  refine ⟨⟨by decide, by decide, by decide, by decide, fun f h => ?_⟩, by decide, ⟨by decide, by decide, by decide, by decide, fun f h => ?_⟩⟩
  · exact absurd h (by simp [st, State.withFetchWord, State.placeFetchWord, State.writeReg])
  · obtain rfl : FaultRecord.memoryExhausted 0xFE#8 = f := Option.some.inj h
    decide

/-- A state a host command reaches from a state that meets the invariant, and a reachable state other than power-on. -/
theorem witness_ReachableStatesMeetInvariant :
    answerHas (hostCommand (.setProgramCounter 0xFE) (st 0x3200 [(0x2#4, 0x41#8)])) (fun r _ => r == .pcSet) = true ∧
      (State.reset.setPc 0xFE#8).Reachable :=
  ⟨by decide, .command (.setProgramCounter 0xFE) State.reset _ .pcSet .reset rfl⟩

/-! ## Witnesses: single steps and index access -/

/-- The indexes beside each range, and commands of each kind that complete. -/
theorem witness_GetReadsOneRegisterOrCell :
    (((-1 : Int) < 0 ∨ (15 : Int) < -1) ∧ ((16 : Int) < 0 ∨ (15 : Int) < 16)) ∧
      (((-1 : Int) < 0 ∨ (255 : Int) < -1) ∧ ((256 : Int) < 0 ∨ (255 : Int) < 256)) ∧
      answerHas (hostCommand (.setProgramCounter 255) State.reset) (fun r _ => r == .pcSet) = true ∧
      answerHas (hostCommand .runOneCycle (st 0x2AFF [])) (fun _ t => t.readReg 0xA#4 == 0xFF#8) = true := by decide

/-- FAULTED; a cycle for each outcome from IDLE; and HALTED steps after which a fetch is possible, at the highest `pc` for that. -/
theorem witness_RunOneCycleAnswersTheOutcome :
    (stAt 0xFE#8 []).raiseExhausted.fsm = .faulted ∧
      (State.reset.fsm = .idle ∧ answerHas (runCycle State.reset) (fun o _ => o == .fault .unknownOpcode) = true) ∧
      ((st 0x4000 []).fsm = .idle ∧ answerHas (runCycle (st 0x4000 [])) (fun o _ => o == .continue) = true) ∧
      ((stAt 0xFB#8 [(0xFB#8, 0xC0#8)]).fsm = .idle ∧ (stAt 0xFB#8 [(0xFB#8, 0xC0#8)]).haltFlag = false ∧
        answerHas (hostCommand .runOneCycle (stAt 0xFB#8 [(0xFB#8, 0xC0#8)]))
          (fun r t => r == .cycle (.done .halted) && t.pc.toNat == 253) = true) := by decide

end Sys2Proof.Tests
end

section
/-! PROOF. Loading a program: the rules of `loadTokens` one token at a time, what one more word adds to a load that has got so
far (`Loaded`), and from these the statements about a successful load and about power-on. -/

namespace Sys2Proof.Machine

/-! ## The words of a list of tokens -/

@[simp] theorem tokenWords_nil : tokenWords [] = some [] := rfl

theorem tokenWords_cons_eq_some {tk : List Char} {tks : List (List Char)} {ws : List Word} :
    tokenWords (tk :: tks) = some ws ↔
      ∃ w ws', parseWord (tk.map upperChar) = some w ∧ tokenWords tks = some ws' ∧ ws = w :: ws' := by
  simp [tokenWords, List.mapM_cons, Option.bind_eq_some_iff, eq_comm (b := ws)]

/-! ## `loadTokens` and `loadProgram`, one equation per case (70_reset_and_hazards.md R280) -/

@[simp] theorem State.loadTokens_nil (n a : Nat) (s : State) : State.loadTokens [] n a s = (.loaded, s.clearFault) := rfl

/-- The format check comes before the room check (70_reset_and_hazards.md R282). -/
theorem State.loadTokens_malformed {tk : List Char} (h : parseWord (tk.map upperChar) = none) (tks : List (List Char))
    (n a : Nat) (s : State) :
    State.loadTokens (tk :: tks) n a s = s.failLoad (.malformedToken (.token n) (tk.map upperChar)) := by
  simp [State.loadTokens, h]

theorem State.loadTokens_noRoom {tk : List Char} {w : Word} (h : parseWord (tk.map upperChar) = some w) {a : Nat}
    (ha : 255 ≤ a) (tks : List (List Char)) (n : Nat) (s : State) :
    State.loadTokens (tk :: tks) n a s = s.failLoad (.programTooLarge a) := by
  simp [State.loadTokens, h, show 255 < a + 1 by omega]

theorem State.loadTokens_word {tk : List Char} {w : Word} (h : parseWord (tk.map upperChar) = some w) {a : Nat}
    (ha : a + 2 ≤ 256) (tks : List (List Char)) (n : Nat) (s : State) :
    State.loadTokens (tk :: tks) n a s = State.loadTokens tks (n + 1) (a + 2) (s.loadWord (BitVec.ofNat 8 a) w) := by
  simp [State.loadTokens, h, show ¬ 255 < a + 1 by omega]

theorem State.loadProgram_of_start {st : List Char} {a : Addr} (h : parseStart st = some a) (s : State) (src : List Char) :
    s.loadProgram src st = State.loadTokens (tokens src) 0 a.toNat (s.resetForLoad a) := by
  simp [State.loadProgram, h]

theorem State.loadProgram_of_start_none {st : List Char} (h : parseStart st = none) (s : State) (src : List Char) :
    s.loadProgram src st = s.failLoad (.malformedToken .start st) := by
  simp [State.loadProgram, h]

/-- A load that is successful found only words, and room for each of them. -/
theorem State.fits_of_loadTokens_loaded {tks : List (List Char)} {n a : Nat} {s t : State} (ha : a ≤ 256)
    (h : State.loadTokens tks n a s = (.loaded, t)) : ∃ ws, tokenWords tks = some ws ∧ a + 2 * ws.length ≤ 256 := by
  induction tks generalizing n a s with
  | nil => exact ⟨[], rfl, ha⟩
  | cons tk tks ih =>
    cases hp : parseWord (tk.map upperChar) with
    | none => simp [State.loadTokens_malformed hp, State.failLoad] at h
    | some w =>
      by_cases hroom : a + 2 ≤ 256
      · rw [State.loadTokens_word hp hroom] at h
        obtain ⟨ws, hws, hfit⟩ := ih hroom h
        exact ⟨w :: ws, tokenWords_cons_eq_some.mpr ⟨w, ws, hp, hws, rfl⟩, by rw [List.length_cons]; omega⟩
      · simp [State.loadTokens_noRoom hp (show 255 ≤ a by omega), State.failLoad] at h

/-! ## One word written by the loader -/

@[simp] theorem State.readReg_loadWord (s : State) (a : Addr) (w : Word) (q : Reg) :
    (s.loadWord a w).readReg q = s.readReg q := by simp [State.loadWord]
@[simp] theorem State.loadWord_pc (s : State) (a : Addr) (w : Word) : (s.loadWord a w).pc = s.pc := by simp [State.loadWord]
@[simp] theorem State.loadWord_haltFlag (s : State) (a : Addr) (w : Word) : (s.loadWord a w).haltFlag = s.haltFlag := by
  simp [State.loadWord]
@[simp] theorem State.loadWord_cycles (s : State) (a : Addr) (w : Word) : (s.loadWord a w).cycles = s.cycles := by
  simp [State.loadWord]
@[simp] theorem State.loadWord_floatZeroPolicy (s : State) (a : Addr) (w : Word) :
    (s.loadWord a w).floatZeroPolicy = s.floatZeroPolicy := by simp [State.loadWord]

theorem State.memRead_loadWord (s : State) (a c : Addr) (w : Word) :
    (s.loadWord a w).memRead c = if c = a + 1#8 then lowByte w else if c = a then highByte w else s.memRead c := by
  simp only [State.loadWord, State.memRead_memWrite]

/-- Only the high byte of a word can be written to cell 0 by a load, for no word starts at cell 255. -/
theorem State.loadWord_out (s : State) {a : Addr} (ha : a ≠ 0xFF#8) (w : Word) :
    (s.loadWord a w).out = if a = 0#8 then s.out ++ [highByte w] else s.out := by
  have hlow : a + 1#8 ≠ 0#8 := by bv_omega
  simp [State.loadWord, hlow]

/-! ## The image in memory grows word by word -/

@[simp] theorem imageByte_nil (a c : Nat) : imageByte a [] c = 0x00#8 := by simp [imageByte]

theorem imageByte_of_lt {a c : Nat} (h : c < a) (ws : List Word) : imageByte a ws c = 0x00#8 := by simp [imageByte, h]

/-- From the load address on, cell `a + d` holds a byte of word `d / 2`. -/
theorem imageByte_add (a : Nat) (ws : List Word) (d : Nat) :
    imageByte a ws (a + d) = (ws[d / 2]?.map fun w => if d % 2 = 0 then highByte w else lowByte w).getD 0x00#8 := by
  cases h : ws[d / 2]? <;> simp [imageByte, h]

/-- One word more changes the two cells after the image, and no other. -/
theorem imageByte_append_singleton (a : Nat) (ws : List Word) (w : Word) (c : Nat) :
    imageByte a (ws ++ [w]) c =
      if c = a + 2 * ws.length + 1 then lowByte w
      else if c = a + 2 * ws.length then highByte w
      else imageByte a ws c := by
  rcases Nat.lt_or_ge c a with hc | hc
  · rw [if_neg (by omega), if_neg (by omega), imageByte_of_lt hc, imageByte_of_lt hc]
  obtain ⟨d, rfl⟩ := Nat.exists_eq_add_of_le hc
  by_cases hlow : d = 2 * ws.length + 1
  · subst hlow
    simp [imageByte_add, show (2 * ws.length + 1) / 2 = ws.length by omega, Nat.add_assoc]
  by_cases hhigh : d = 2 * ws.length
  · subst hhigh
    simp [imageByte_add]
  rw [if_neg (by omega), if_neg (by omega), imageByte_add, imageByte_add]
  rcases Nat.lt_or_gt_of_ne (show d / 2 ≠ ws.length by omega) with hd | hd
  · rw [List.getElem?_append_left hd]
  · rw [List.getElem?_eq_none (by simp; omega), List.getElem?_eq_none (by omega)]

/-! ## `Loaded` along a load (10_state.md R38) -/

theorem Loaded.clearFault {s t : State} {a : Addr} {ws : List Word} (h : Loaded s t a ws) : Loaded s t.clearFault a ws :=
  ⟨h.regs, h.cells, h.out, h.pc, h.haltFlag, h.floatZeroPolicy⟩

@[simp] theorem State.readReg_resetForLoad (s : State) (a : Addr) (q : Reg) : (s.resetForLoad a).readReg q = 0x00#8 := by
  simp [State.readReg]

@[simp] theorem State.memRead_resetForLoad (s : State) (a c : Addr) : (s.resetForLoad a).memRead c = 0x00#8 := rfl

theorem loaded_resetForLoad (s : State) (a : Addr) : Loaded s (s.resetForLoad a) a [] where
  regs := s.readReg_resetForLoad a
  cells := by simp
  out := by simp
  pc := rfl
  haltFlag := rfl
  floatZeroPolicy := rfl

/-- One word more, where there is room for it. -/
theorem Loaded.loadWord {s t : State} {a : Addr} {ws : List Word} (h : Loaded s t a ws)
    (hfit : a.toNat + 2 * ws.length + 2 ≤ 256) (w : Word) :
    Loaded s (t.loadWord (BitVec.ofNat 8 (a.toNat + 2 * ws.length)) w) a (ws ++ [w]) := by
  generalize hb : BitVec.ofNat 8 (a.toNat + 2 * ws.length) = b
  have hbn : b.toNat = a.toNat + 2 * ws.length := by
    rw [← hb, BitVec.toNat_ofNat, Nat.mod_eq_of_lt (by omega)]
  refine ⟨?regs, ?cells, ?out, ?pc, ?haltFlag, ?policy⟩
  case regs => simpa using h.regs
  case cells =>
    intro c
    have hlow : c = b + 1#8 ↔ c.toNat = a.toNat + 2 * ws.length + 1 := by bv_omega
    have hhigh : c = b ↔ c.toNat = a.toNat + 2 * ws.length := by rw [← BitVec.toNat_inj, hbn]
    simp only [State.memRead_loadWord, imageByte_append_singleton, hlow, hhigh, h.cells]
  case out =>
    have hzero : b = 0#8 ↔ a = 0#8 ∧ ws = [] := by
      rw [← List.length_eq_zero_iff]; bv_omega
    rw [State.loadWord_out t (by bv_omega) w, h.out]
    cases ws <;> simp [hzero]
  case pc => simpa using h.pc
  case haltFlag => simpa using h.haltFlag
  case policy => simpa using h.floatZeroPolicy

/-- A load goes through well-formed tokens that fit by writing their words and nothing else; it goes on with the tokens after
them, at the next free address. -/
theorem Loaded.loadTokens_append {s₀ s : State} {a : Addr} {done ws : List Word} {good : List (List Char)}
    (h : Loaded s₀ s a done) (hgood : tokenWords good = some ws) (hfit : a.toNat + 2 * (done ++ ws).length ≤ 256)
    (rest : List (List Char)) (n : Nat) :
    ∃ t, State.loadTokens (good ++ rest) n (a.toNat + 2 * done.length) s =
        State.loadTokens rest (n + good.length) (a.toNat + 2 * (done ++ ws).length) t ∧
      Loaded s₀ t a (done ++ ws) ∧ t.cycles = s.cycles := by
  induction good generalizing s done ws n with
  | nil =>
    obtain rfl : [] = ws := Option.some.inj hgood
    exact ⟨s, by simp, by simpa using h, rfl⟩
  | cons tk good ih =>
    obtain ⟨w, ws, hw, hws, rfl⟩ := tokenWords_cons_eq_some.mp hgood
    have hroom : a.toNat + 2 * done.length + 2 ≤ 256 := by simp at hfit; omega
    obtain ⟨t, ht, hloaded, hcycles⟩ := ih (h.loadWord hroom w) hws (by simpa using hfit) (n + 1)
    refine ⟨t, ?_, by simpa using hloaded, by simpa using hcycles⟩
    rw [List.cons_append, State.loadTokens_word hw hroom]
    simpa [Nat.mul_add, Nat.add_assoc, Nat.add_comm 1] using ht

/-- `Loaded.loadTokens_append` from the start of a load: after the tokens `good` of the source. -/
theorem State.loadProgram_append {src st : List Char} {a : Addr} {good rest : List (List Char)} {ws : List Word} (s : State)
    (hst : parseStart st = some a) (hsrc : tokens src = good ++ rest) (hgood : tokenWords good = some ws)
    (hfit : a.toNat + 2 * ws.length ≤ 256) :
    ∃ t, s.loadProgram src st = State.loadTokens rest good.length (a.toNat + 2 * ws.length) t ∧
      Loaded s t a ws ∧ t.cycles = s.cycles := by
  rw [State.loadProgram_of_start hst, hsrc]
  simpa using (loaded_resetForLoad s a).loadTokens_append hgood (by simpa using hfit) rest 0

/-! ## The statements -/

theorem State.loadProgram_loaded {src st : List Char} {a : Addr} {ws : List Word} (s : State) (hst : parseStart st = some a)
    (hws : tokenWords (tokens src) = some ws) (hfit : a.toNat + 2 * ws.length ≤ 256) :
    ∃ t, s.loadProgram src st = (.loaded, t) ∧ Loaded s t a ws ∧ t.fault = none ∧ t.fsm = .idle ∧ t.cycles = 0 := by
  obtain ⟨t, ht, hloaded, -⟩ := s.loadProgram_append hst (List.append_nil _).symm hws hfit
  exact ⟨t.clearFault, ht, hloaded.clearFault, rfl, rfl, rfl⟩

theorem State.fits_of_loadProgram_loaded {s t : State} {src st : List Char} (h : s.loadProgram src st = (.loaded, t)) :
    ∃ a ws, parseStart st = some a ∧ tokenWords (tokens src) = some ws ∧ a.toNat + 2 * ws.length ≤ 256 := by
  cases hst : parseStart st with
  | none => simp [State.loadProgram_of_start_none hst, State.failLoad] at h
  | some a =>
    rw [State.loadProgram_of_start hst] at h
    obtain ⟨ws, hws, hfit⟩ := State.fits_of_loadTokens_loaded (by omega) h
    exact ⟨a, ws, rfl, hws, hfit⟩

/-- Settles O51: the load writes word after word (`Loaded.loadWord`), and it ends as loaded only after the last token. -/
theorem loadPlacesTheProgram : Obligations.LoadPlacesTheProgram :=
  ⟨fun s _ _ _ _ hst hws hfit => s.loadProgram_loaded hst hws hfit, fun _ _ _ _ h => State.fits_of_loadProgram_loaded h⟩

/-- The host's default start text names the default load address (70_reset_and_hazards.md R281). -/
theorem parseStart_defaultStartText : parseStart defaultStartText = some Config.defaultLoadAddr := by decide

/-- An empty program is loaded by the reset and the clearing of the fault alone. -/
theorem State.loadProgram_nil {st : List Char} {a : Addr} (h : parseStart st = some a) (s : State) :
    s.loadProgram [] st = (.loaded, (s.resetForLoad a).clearFault) :=
  State.loadProgram_of_start h s []

/-- Settles O49: an empty load is the reset at the default address and the clearing of the fault, field by field power-on. -/
theorem powerOnIsAnEmptyLoad : Obligations.PowerOnIsAnEmptyLoad := by
  refine ⟨fun s => ⟨(s.resetForLoad Config.defaultLoadAddr).clearFault, ?_, rfl⟩, ?_, fun _ => rfl, rfl, rfl, rfl, rfl, rfl, rfl⟩
  · simp only [hostCommand, Option.getD_none, State.loadProgram_nil parseStart_defaultStartText]
  · intro r
    simp [State.readReg, State.reset]

end Sys2Proof.Machine
end

section
/-! PROOF. The read and write primitives of memory (20_memory.md R60, R61): the bounds check of the forms for any integer address,
the frame of the one write path, and that a STORE and the loader go through it. -/

namespace Sys2Proof.Machine

/-! ## The bounds check -/

theorem State.memReadAt_toNat (s : State) (a : Addr) : s.memReadAt (a.toNat : Int) = .ok (s.memRead a) := by
  have hrange : 0 ≤ (a.toNat : Int) ∧ (a.toNat : Int) ≤ 255 := by omega
  rw [State.memReadAt, if_pos hrange, Int.toNat_natCast, BitVec.ofNat_toNat, BitVec.setWidth_eq]

theorem State.memReadAt_outOfRange (s : State) {a : Int} (ha : a < 0 ∨ 255 < a) : s.memReadAt a = .error ⟨.memory, a⟩ :=
  if_neg (by omega)

theorem State.memWriteAt_toNat (s : State) (a : Addr) (v : Byte) : s.memWriteAt (a.toNat : Int) v = .ok (s.memWrite a v) := by
  have hrange : 0 ≤ (a.toNat : Int) ∧ (a.toNat : Int) ≤ 255 := by omega
  rw [State.memWriteAt, if_pos hrange, Int.toNat_natCast, BitVec.ofNat_toNat, BitVec.setWidth_eq]

theorem State.memWriteAt_outOfRange (s : State) {a : Int} (v : Byte) (ha : a < 0 ∨ 255 < a) :
    s.memWriteAt a v = .error ⟨.memory, a⟩ :=
  if_neg (by omega)

/-! ## The one write path -/

@[simp] theorem State.memRead_memWrite_same (s : State) (a : Addr) (v : Byte) : (s.memWrite a v).memRead a = v := by
  simp [State.memRead_memWrite]

theorem State.memRead_memWrite_of_ne (s : State) {a b : Addr} (h : b ≠ a) (v : Byte) :
    (s.memWrite a v).memRead b = s.memRead b := by
  simp [State.memRead_memWrite, h]

/-- The frame of a write: the cells by `memRead_memWrite_of_ne`, every other part by its rule in the state laws. -/
theorem State.onlyCellAndOut_memWrite (s : State) (a : Addr) (v : Byte) : OnlyCellAndOut s (s.memWrite a v) a where
  regs := s.readReg_memWrite a v
  pc := s.memWrite_pc a v
  cells _ h := s.memRead_memWrite_of_ne h v
  haltFlag := s.memWrite_haltFlag a v
  fault := s.memWrite_fault a v
  fsm := s.memWrite_fsm a v
  ir := s.memWrite_ir a v
  cycles := s.memWrite_cycles a v
  floatZeroPolicy := s.memWrite_floatZeroPolicy a v

/-- The meaning of STORE (42_transfer.md R182). -/
theorem exec_store (r : Reg) (xy : Addr) (s : State) : exec (.store r xy) s = .next (s.memWrite xy (s.readReg r)) := rfl

/-- A loaded word is two writes, the high byte first (70_reset_and_hazards.md R280). -/
theorem State.loadWord_eq_memWrite_memWrite (s : State) (a : Addr) (w : Word) :
    s.loadWord a w = (s.memWrite a (w.extractLsb' 8 8)).memWrite (a + 1#8) (w.extractLsb' 0 8) := rfl

/-! ## The statements -/

/-- Settles O26: the write's rules for the cell, the frame, `out` and the bounds, and its two users, STORE and the loader. -/
theorem memWriteSetsOneCell : Obligations.MemWriteSetsOneCell :=
  ⟨fun s a v => ⟨s.memRead_memWrite_same a v, s.onlyCellAndOut_memWrite a v, s.memWrite_out a v, s.memWriteAt_toNat a v⟩,
    fun s _ v ha => s.memWriteAt_outOfRange v ha, exec_store, State.loadWord_eq_memWrite_memWrite⟩

/-- Settles O27: the bounds check passes for every address and for nothing else. -/
theorem memReadGivesTheCell : Obligations.MemReadGivesTheCell :=
  ⟨State.memReadAt_toNat, fun s _ ha => s.memReadAt_outOfRange ha⟩

end Sys2Proof.Machine
end

section
/-! PROOF. Encoding (30_encoding.md): the decoder undoes the encoder, so that opcodes 4, A and C decode for every ignored digit
(R95); and the meanings of the instructions with ignored digits and of the pseudo-instructions (R95, R99). -/

namespace Sys2Proof

/-! ## The decoder on encoded instructions -/

theorem exists_decodeWord_of_digit0 {w : Word} (h : 1 ≤ (digit0 w).toNat ∧ (digit0 w).toNat ≤ 13) :
    ∃ i, decodeWord w = .ok i := by
  have hok : (decodeWord w).isOk = true := by
    simpa only [decodeWord_isOk, wordLegal, ← digit0_toNat, Bool.and_eq_true, decide_eq_true_eq] using h
  cases hw : decodeWord w with
  | ok i => exact ⟨i, rfl⟩
  | error e => simp [hw, Except.isOk, Except.toBool] at hok

/-- The opcode digit selects the row of the table, and the fields of the row's format are the operands (30_encoding.md R91, R93). -/
theorem decodeWord_encode (i : Instr) : decodeWord (encode i) = .ok i := by
  unfold decodeWord
  rw [encode_digit0]
  cases i with
  | loadm r xy | loadi r xy | store r xy | jeq r xy | jlt r xy =>
    simpa [encode, Instr.opcode, Instr.operandBits] using fields_rxy _ r xy
  | move r s t | addi r s t | addf r s t | or r s t | and r s t | xor r s t | ror r s t =>
    simpa [encode, Instr.opcode, Instr.operandBits] using fields_rst _ r s t
  | halt ign => simp [Instr.opcode, encode_digits123, Instr.operandBits]

end Sys2Proof

namespace Sys2Proof.Machine

/-! ## The meanings -/

/-- The meaning of MOVE, which the digit d1 does not enter (42_transfer.md R183). -/
theorem exec_move (g : Digit) (r d : Reg) (s : State) : exec (.move g r d) s = .next (s.writeReg d (s.readReg r)) := rfl

/-- The meaning of ROR, which the digit d2 does not enter (43_alu.md R205). -/
theorem exec_ror (r : Reg) (g x : Digit) (s : State) :
    exec (.ror r g x) s = .next (s.writeReg r (rotateRight (s.readReg r) (rotateCount x))) := rfl

/-- The meaning of HALT, which the digits d1 to d3 do not enter (44_control.md R231). -/
theorem exec_halt (g : BitVec 12) (s : State) : exec (.halt g) s = .next s.setHalt := rfl

/-- The meaning of JEQ (44_control.md R230). -/
theorem exec_jeq (r : Reg) (xy : Addr) (s : State) : exec (.jeq r xy) s = .next (s.branchIf (s.condEqual r) xy) := rfl

/-- `x[0] = x[0]` always holds (30_encoding.md R99). -/
@[simp] theorem State.condEqual_zero (s : State) : s.condEqual 0#4 = true := beq_self_eq_true (s.readReg 0#4)

@[simp] theorem State.branchIf_true (s : State) (xy : Addr) : s.branchIf true xy = s.setPc xy := rfl

/-! ## The statements -/

/-- Settles O4: a digit 1..D makes a legal word, the decoder undoes the encoder with any ignored digit, and the ignored digit
is no part of the meanings of MOVE, ROR and HALT. -/
theorem ignoredDigitsHaveNoEffect : Obligations.IgnoredDigitsHaveNoEffect := by
  refine ⟨fun _ h₁ h₂ => exists_decodeWord_of_digit0 ⟨h₁, h₂⟩, ?move, ?ror, ?halt, ?execMove, ?execRor, ?execHalt⟩
  case move => exact fun g r d => decodeWord_encode (.move g r d)
  case ror => exact fun r g x => decodeWord_encode (.ror r g x)
  case halt => exact fun g => decodeWord_encode (.halt g)
  case execMove => exact fun g g' r d s => (exec_move g r d s).trans (exec_move g' r d s).symm
  case execRor => exact fun r g g' x s => (exec_ror r g x s).trans (exec_ror r g' x s).symm
  case execHalt => exact fun g g' s => (exec_halt g s).trans (exec_halt g' s).symm

/-- Settles O6: JMP's condition compares register 0 with itself, and NOP writes register 0 its own value. -/
theorem pseudoInstructionsWork : Obligations.PseudoInstructionsWork := by
  refine ⟨fun xy s => ⟨rfl, ?jmp⟩, rfl, fun s => ?nop⟩
  case jmp => rw [Instr.jmp, exec_jeq, State.condEqual_zero, State.branchIf_true]
  case nop => rw [Instr.nop, exec_move, State.writeReg_readReg]

end Sys2Proof.Machine
end

section
/-! PROOF. The numeric codec (40_codec.md): integers are two's complement (R121 to R123); float bytes decode and encode by the
formulas over the rationals (R125, R127 to R129); and what becomes of zero (R130). -/

namespace Sys2Proof.Machine

/-! ## Integers (40_codec.md R121, R122) -/

theorem decodeInt_eq_toInt (b : Byte) : decodeInt b = b.toInt := by
  rw [decodeInt, BitVec.toInt_eq_msb_cond, BitVec.msb_eq_getLsbD_last]
  rfl

/-- `encodeInt` reduces modulo 256 (40_codec.md R122). -/
theorem toNat_encodeInt (n : Int) : ((encodeInt n).toNat : Int) = n % 256 := by
  rw [encodeInt, BitVec.toNat_ofNat]
  omega

theorem encodeInt_eq_ofInt (n : Int) : encodeInt n = BitVec.ofInt 8 n := by
  apply BitVec.eq_of_toNat_eq
  have h := toNat_encodeInt n
  rw [BitVec.toNat_ofInt]
  omega

/-- Settles O18: `decodeInt` and `encodeInt` are the library's `toInt` and `ofInt`, whose bounds and round trips are known. -/
theorem intCodecIsTwosComplement : Obligations.IntCodecIsTwosComplement := by
  refine ⟨fun b => ⟨rfl, decodeInt_eq_toInt b, ?lower, ?upper⟩, toNat_encodeInt, fun v hlo hhi => ?decodeEncode,
    fun b => ?encodeDecode⟩
  case lower => simpa [decodeInt_eq_toInt] using b.le_toInt
  case upper =>
    have hlt : b.toInt < 128 := by simpa using b.toInt_lt
    rw [decodeInt_eq_toInt]
    omega
  case decodeEncode =>
    rw [decodeInt_eq_toInt, encodeInt_eq_ofInt]
    exact BitVec.toInt_ofInt_eq_self (by omega) (by omega) (by omega)
  case encodeDecode => rw [encodeInt_eq_ofInt, decodeInt_eq_toInt, BitVec.ofInt_toInt]

/-! ## The rational of a fraction -/

theorem Frac.value_eq_zero_iff {q : Frac} (hd : 0 < q.den) : q.value = 0 ↔ q.num = 0 := by
  simp [Frac.value, hd.ne']

theorem Frac.value_neg_iff {q : Frac} (hd : 0 < q.den) : q.value < 0 ↔ q.num < 0 := by
  rw [Frac.value, div_lt_iff₀ (by exact_mod_cast hd), zero_mul]
  exact_mod_cast Iff.rfl

theorem Frac.abs_value (q : Frac) : |q.value| = (q.num.natAbs : ℚ) / q.den := by
  rw [Frac.value, abs_div, Nat.abs_cast, Nat.cast_natAbs, Int.cast_abs]

/-- The sum of fractions is the sum of the rationals. -/
theorem Frac.value_add {p q : Frac} (hp : 0 < p.den) (hq : 0 < q.den) : (p.add q).value = p.value + q.value := by
  have hp' : (p.den : ℚ) ≠ 0 := by exact_mod_cast hp.ne'
  have hq' : (q.den : ℚ) ≠ 0 := by exact_mod_cast hq.ne'
  simp only [Frac.value, Frac.add, Int.cast_add, Int.cast_mul, Int.cast_natCast, Nat.cast_mul]
  field_simp

/-! ## Decoding floats (40_codec.md R125) -/

theorem decodeFloat_value (b : Byte) : (decodeFloat b).value = floatValue b := by
  have hpow : (2 : ℚ) ^ ((floatExp b : ℤ) - 4) = 2 ^ floatExp b / 16 := by
    rw [zpow_sub₀ two_ne_zero, zpow_natCast]; norm_num
  rw [floatValue, hpow]
  cases hs : floatSign b <;> simp [Frac.value, decodeFloat, hs] <;> ring

/-- Settles O19: the factors 1/16 of the fraction field and of the bias are the decoder's denominator 256. -/
theorem decodeFloatIsTheFormula : Obligations.DecodeFloatIsTheFormula := decodeFloat_value

/-! ## Encoding floats (40_codec.md R127 to R129) -/

/-- The loops leave a value in [1, 2) and keep the magnitude: `n / d = num / den * 2^e` (40_codec.md R127). -/
theorem normalise_value {n d : Nat} (hn : 0 < n) (hd : 0 < d) :
    0 < (normalise n d).den ∧ (normalise n d).den ≤ (normalise n d).num ∧
      (normalise n d).num < 2 * (normalise n d).den ∧
      (n : ℚ) / d = (normalise n d).num / (normalise n d).den * 2 ^ (normalise n d).e := by
  obtain ⟨k, j, hnorm, hle, hlt⟩ := normalise_spec hn hd
  rw [hnorm]
  refine ⟨by positivity, hle, hlt, ?_⟩
  have hd' : (d : ℚ) ≠ 0 := by exact_mod_cast hd.ne'
  simp only [Nat.cast_mul, Nat.cast_pow, Nat.cast_ofNat, zpow_sub₀ (two_ne_zero (α := ℚ)), zpow_natCast]
  field_simp

/-- The fraction field is the truncation `floor((a - 1) * 16)` (40_codec.md R129). -/
theorem Norm.fraction_eq_floor {a : Norm} (hd : 0 < a.den) (h : a.den ≤ a.num) :
    (a.fraction : ℤ) = ⌊((a.num : ℚ) / a.den - 1) * 16⌋ := by
  have hd' : (a.den : ℚ) ≠ 0 := by exact_mod_cast hd.ne'
  have hq : ((a.num : ℚ) / a.den - 1) * 16 = ((a.num - a.den) * 16 : Nat) / (a.den : ℚ) := by
    rw [Nat.cast_mul, Nat.cast_sub h]
    field_simp
    norm_num
  rw [hq, Rat.floor_natCast_div_natCast, Norm.fraction, Int.natCast_ediv]

/-- The fields of an encoded byte are the sign and what the loops leave (40_codec.md R127). -/
theorem encodeNonzero_fields {q : Frac} (hq : q.num ≠ 0) (hd : 0 < q.den) :
    floatSign (encodeNonzero q) = decide (q.num < 0) ∧
      floatExp (encodeNonzero q) = (normalise q.num.natAbs q.den).exponent ∧
      floatFrac (encodeNonzero q) = (normalise q.num.natAbs q.den).fraction := by
  obtain ⟨hden, -, hlt, -⟩ := normalise_value (Int.natAbs_pos.mpr hq) hd
  simpa [encodeNonzero] using packed_fields (b := decide (q.num < 0)) (Norm.exponent_lt _) (Norm.fraction_lt hden hlt)

theorem isFloatEncoding_encodeNonzero {q : Frac} (hq : q.num ≠ 0) (hd : 0 < q.den) :
    IsFloatEncoding q.value (encodeNonzero q) := by
  obtain ⟨hsign, hexp, hfrac⟩ := encodeNonzero_fields hq hd
  obtain ⟨hden, hge, hlt, hval⟩ := normalise_value (Int.natAbs_pos.mpr hq) hd
  rw [← Frac.abs_value] at hval
  generalize normalise q.num.natAbs q.den = a at *
  have hden' : (0 : ℚ) < a.den := by exact_mod_cast hden
  have hpow : (0 : ℚ) < 2 ^ a.e := by positivity
  have hone : (1 : ℚ) ≤ a.num / a.den := by
    rw [le_div_iff₀ hden', one_mul]; exact_mod_cast hge
  have htwo : (a.num : ℚ) / a.den < 2 := by
    rw [div_lt_iff₀ hden']; exact_mod_cast hlt
  refine ⟨a.e, ?lower, ?upper, ?sign, ?exponent, ?fraction⟩
  case lower => rw [hval]; exact le_mul_of_one_le_left hpow.le hone
  case upper => rw [hval, zpow_add_one₀ two_ne_zero, mul_comm]; exact mul_lt_mul_of_pos_left htwo hpow
  case sign => rw [hsign, decide_eq_true_iff, Frac.value_neg_iff hd]
  case exponent => rw [hexp, a.exponent_cast]
  case fraction => rw [hfrac, a.fraction_eq_floor hden hge, hval, mul_div_cancel_right₀ _ hpow.ne']

theorem encodeFloat_of_ne_zero (p : FloatZeroPolicy) {q : Frac} (h : q.num ≠ 0) : encodeFloat p q = some (encodeNonzero q) :=
  if_neg h

theorem encodeFloat_encode00_of_eq_zero {q : Frac} (h : q.num = 0) : encodeFloat .encode00 q = some 0x00#8 := if_pos h

/-- Settles O21: the exponent `e` is what the two loops count, and the fields are those the byte is packed from. -/
theorem encodeFloatNormalises : Obligations.EncodeFloatNormalises :=
  fun p _ hq hd => ⟨_, encodeFloat_of_ne_zero p hq, isFloatEncoding_encodeNonzero hq hd⟩

/-! ## Zero (40_codec.md R130) -/

/-- The fraction that ADDF encodes is zero exactly when the decoded values cancel (43_alu.md R201). -/
theorem add_decodeFloat_num_eq_zero_iff (a b : Byte) :
    ((decodeFloat a).add (decodeFloat b)).num = 0 ↔ floatValue a + floatValue b = 0 := by
  have hden : ∀ c, 0 < (decodeFloat c).den := fun _ => by simp
  rw [← Frac.value_eq_zero_iff (Nat.mul_pos (hden a) (hden b)), Frac.value_add (hden a) (hden b), decodeFloat_value,
    decodeFloat_value]

/-- Under `STUCK` an ADDF of an exact zero sum does not complete. -/
theorem exec_addf_stuck {a b : Reg} {s : State} (hp : s.floatZeroPolicy = .stuck)
    (h : floatValue (s.readReg a) + floatValue (s.readReg b) = 0) (r : Reg) :
    exec (.addf r a b) s = .fault .floatZeroStuck := by
  have hnone : addFloat s.floatZeroPolicy (s.readReg a) (s.readReg b) = none :=
    encodeFloat_eq_none_iff.mpr ⟨(add_decodeFloat_num_eq_zero_iff _ _).mpr h, hp⟩
  simp only [exec, execAddf, hnone]

/-- A step from IDLE whose fetch is possible and whose word decodes runs the instruction on the fetched state. -/
theorem step_of_decoded {s : State} {i : Instr} (hi : s.fsm = .idle) (hpc : s.pc.toNat ≤ 253)
    (hw : decodeWord (s.memRead2 s.pc) = .ok i) : step s = stateOf (closeOutcome (exec i s.fetched)) := by
  rw [step_of_runCycle, runCycle_fetched hi hpc, executePhase_ok (s := s.fetched) hw]

/-- The least positive value, which zero encodes to (40_codec.md R130). -/
theorem floatValue_zero_byte : floatValue 0x00#8 = 1 / 16 := by
  rw [← decodeFloat_value, show decodeFloat 0x00#8 = ⟨16, 256⟩ by decide]
  norm_num [Frac.value]

/-- Settles O24: `encodeFloat` takes its zero branch, and the fetch changes neither the registers nor the policy that ADDF reads. -/
theorem floatZeroFollowsThePolicy : Obligations.FloatZeroFollowsThePolicy := by
  refine ⟨fun d => encodeFloat_encode00_of_eq_zero rfl, floatValue_zero_byte, fun s r a b hi hpc hp hw hzero => ?_⟩
  have hexec : exec (.addf r a b) s.fetched = .fault .floatZeroStuck := exec_addf_stuck (s := s.fetched) hp hzero r
  rw [step_of_decoded hi hpc hw, hexec]
  rfl

end Sys2Proof.Machine
end

section
/-! PROOF. The host's commands of 41_fetch_decode.md: what each answers (R156, R158 to R160), the two renderings of `out`
(20_memory.md R62), and a HALTED cycle. A command that is no load, step or run changes nothing but `pc`. -/

namespace Sys2Proof.Machine

/-! ## `setProgramCounter` (41_fetch_decode.md R158) -/

theorem State.setProgramCounter_toNat (s : State) (a : Addr) : s.setProgramCounter (a.toNat : Int) = .ok (s.setPc a) := by
  have hrange : 0 ≤ (a.toNat : Int) ∧ (a.toNat : Int) ≤ 255 := by omega
  rw [State.setProgramCounter, if_pos hrange, Int.toNat_natCast, BitVec.ofNat_toNat, BitVec.setWidth_eq]

theorem State.setProgramCounter_outOfRange (s : State) {a : Int} (ha : a < 0 ∨ 255 < a) :
    s.setProgramCounter a = .error ⟨.pc, a⟩ :=
  if_neg (by omega)

theorem hostCommand_setProgramCounter_toNat (s : State) (a : Addr) :
    hostCommand (.setProgramCounter a.toNat) s = .next (.pcSet, s.setPc a) := by
  simp only [hostCommand, State.setProgramCounter_toNat]

theorem hostCommand_setProgramCounter_outOfRange (s : State) {a : Int} (ha : a < 0 ∨ 255 < a) :
    hostCommand (.setProgramCounter a) s = .next (.outOfRange ⟨.pc, a⟩, s) := by
  simp only [hostCommand, State.setProgramCounter_outOfRange s ha]

/-- Settles O45: the bounds check passes for every address and for nothing else, in any FSM state. -/
theorem setProgramCounterSetsPcOnly : Obligations.SetProgramCounterSetsPcOnly :=
  ⟨hostCommand_setProgramCounter_toNat, fun s _ ha => hostCommand_setProgramCounter_outOfRange s ha⟩

/-! ## `get` (41_fetch_decode.md R160) -/

theorem State.readRegAt_toNat (s : State) (r : Reg) : s.readRegAt (r.toNat : Int) = .ok (s.readReg r) := by
  have hrange : 0 ≤ (r.toNat : Int) ∧ (r.toNat : Int) ≤ 15 := by omega
  rw [State.readRegAt, if_pos hrange, Int.toNat_natCast, BitVec.ofNat_toNat, BitVec.setWidth_eq]

theorem State.readRegAt_outOfRange (s : State) {i : Int} (hi : i < 0 ∨ 15 < i) : s.readRegAt i = .error ⟨.register, i⟩ :=
  if_neg (by omega)

theorem hostCommand_getRegister_toNat (s : State) (r : Reg) :
    hostCommand (.getRegister r.toNat) s = .next (.byte (s.readReg r), s) := by
  simp only [hostCommand, State.readRegAt_toNat, State.getReply]

theorem hostCommand_getRegister_outOfRange (s : State) {i : Int} (hi : i < 0 ∨ 15 < i) :
    hostCommand (.getRegister i) s = .next (.outOfRange ⟨.register, i⟩, s) := by
  simp only [hostCommand, State.readRegAt_outOfRange s hi, State.getReply]

theorem hostCommand_getMemory_toNat (s : State) (a : Addr) :
    hostCommand (.getMemory a.toNat) s = .next (.byte (s.memRead a), s) := by
  simp only [hostCommand, State.memReadAt_toNat, State.getReply]

theorem hostCommand_getMemory_outOfRange (s : State) {i : Int} (hi : i < 0 ∨ 255 < i) :
    hostCommand (.getMemory i) s = .next (.outOfRange ⟨.memory, i⟩, s) := by
  simp only [hostCommand, State.memReadAt_outOfRange s hi, State.getReply]

/-! ## The commands that are no load, step or run -/

theorem State.getReply_next {s t : State} {e : Except OutOfRange Byte} {r : Reply} (h : s.getReply e = .next (r, t)) :
    t = s := by
  cases e <;> cases h <;> rfl

/-- What a command that completes can do to the state, where it is no load, step or run: nothing, or set `pc`. -/
theorem hostCommand_next {c : HostCommand} {s t : State} {r : Reply} (h : hostCommand c s = .next (r, t)) :
    (t = s ∨ ∃ p, t = s.setPc p) ∨
      (∃ src st, c = .loadProgram src st) ∨ c = .runOneCycle ∨ ∃ m, c = .runUntilHaltOrLimit m := by
  cases c with
  | loadProgram src st => exact .inr (.inl ⟨src, st, rfl⟩)
  | setProgramCounter addr =>
    by_cases hrange : addr < 0 ∨ 255 < addr
    · rw [hostCommand_setProgramCounter_outOfRange s hrange] at h
      cases h
      exact .inl (.inl rfl)
    · obtain ⟨a, rfl⟩ : ∃ a : Addr, addr = a.toNat := ⟨BitVec.ofNat 8 addr.toNat, by simp; omega⟩
      rw [hostCommand_setProgramCounter_toNat] at h
      cases h
      exact .inl (.inr ⟨a, rfl⟩)
  | runOneCycle => exact .inr (.inr (.inl rfl))
  | runUntilHaltOrLimit m => exact .inr (.inr (.inr ⟨m, rfl⟩))
  | snapshot => cases h; exact .inl (.inl rfl)
  | getRegister i => exact .inl (.inl (State.getReply_next h))
  | getMemory a => exact .inl (.inl (State.getReply_next h))

/-- Settles O59: the bounds checks of the two reads, and by `hostCommand_next` the other commands change at most `pc`. -/
theorem getReadsOneRegisterOrCell : Obligations.GetReadsOneRegisterOrCell := by
  refine ⟨hostCommand_getRegister_toNat, hostCommand_getMemory_toNat,
    fun s _ hi => hostCommand_getRegister_outOfRange s hi, fun s _ hi => hostCommand_getMemory_outOfRange s hi, ?_⟩
  intro c s t r h
  rcases hostCommand_next h with (rfl | ⟨p, rfl⟩) | hwrites
  · exact .inl ⟨fun _ => rfl, fun _ => rfl⟩
  · exact .inl ⟨s.readReg_setPc p, s.memRead_setPc p⟩
  · exact .inr hwrites

/-! ## `snapshot` and the renderings of `out` (41_fetch_decode.md R159; 20_memory.md R62) -/

theorem State.getElem?_snapshot_registers (s : State) (r : Reg) : s.snapshot.registers[r.toNat]? = some (s.readReg r) := by
  have hr : r.toNat < s.regs.toList.length := by simpa using r.isLt
  rw [State.snapshot, List.getElem?_eq_getElem hr, Vector.getElem_toList, State.readReg]

theorem Memory.getElem?_cells (m : List Host.Cell) {a : Nat} (ha : a < Config.memSize) :
    (Memory.cells m)[a]? = some (Memory.read m a) := by
  simp [Memory.cells, ha]

theorem getElem?_renderAscii_of_lt {out : List Byte} {k : Nat} {b : Byte} (h : out[k]? = some b) (hb : b.toNat < 128) :
    (renderAscii out)[k]? = some (Char.ofNat b.toNat) := by
  simp [renderAscii, h, displayText, hb]

theorem renderHex_cons (b : Byte) (out : List Byte) : renderHex (b :: out) = hexText b ++ ' ' :: renderHex out := by
  simp [renderHex]

theorem length_renderHex (out : List Byte) : (renderHex out).length = 3 * out.length := by
  induction out with
  | nil => rfl
  | cons b out ih => simp [renderHex_cons, hexText, ih]; omega

/-- The three characters of byte `k`. -/
theorem getElem?_renderHex {out : List Byte} {k : Nat} {b : Byte} (h : out[k]? = some b) {j : Nat} (hj : j < 3) :
    (renderHex out)[3 * k + j]? = (hexText b ++ [' '])[j]? := by
  induction out generalizing k with
  | nil => simp at h
  | cons c out ih =>
    rw [renderHex_cons]
    cases k with
    | zero =>
      obtain rfl : c = b := by simpa using h
      interval_cases j <;> rfl
    | succ k =>
      rw [show 3 * (k + 1) + j = 3 * k + j + 3 by omega]
      exact ih (by simpa using h)

/-- Settles O46: the lists of a snapshot are read by index, and the hex rendering holds three characters per byte. -/
theorem snapshotShowsTheState : Obligations.SnapshotShowsTheState := by
  refine ⟨by decide, fun s => ⟨s.snapshot, rfl, ?registers, s.getElem?_snapshot_registers, ?cells, ?cell, rfl, rfl, rfl,
    ?ascii, fun _ _ hk hb => getElem?_renderAscii_of_lt hk hb, length_renderHex s.out, ?hex⟩⟩
  case registers => exact s.regs.length_toList
  case cells => exact (List.length_map ..).trans List.length_range
  case cell => exact fun a => Memory.getElem?_cells s.mem a.isLt
  case ascii => exact List.length_map ..
  case hex =>
    intro k b hk
    exact ⟨getElem?_renderHex hk (j := 0) (by decide), getElem?_renderHex hk (j := 1) (by decide),
      getElem?_renderHex hk (j := 2) (by decide)⟩

/-! ## Running in FAULTED, and a load (41_fetch_decode.md R161) -/

theorem step_faulted {s : State} (hf : s.fsm = .faulted) : step s = .refused .faultLatched := by
  simp only [step, runCycle, hf, stateOf]

theorem hostCommand_runOneCycle_faulted {s : State} (hf : s.fsm = .faulted) :
    hostCommand .runOneCycle s = .next (.cycle .refused, s) := by
  simp only [hostCommand, runOneCycle, if_pos hf, Answer.reply]

theorem hostCommand_runUntilHaltOrLimit_faulted {s : State} (hf : s.fsm = .faulted) (m : Option Nat) :
    hostCommand (.runUntilHaltOrLimit m) s = .next (.run .refused, s) := by
  simp only [hostCommand, runUntilHaltOrLimit, if_pos hf, Answer.reply]

/-- A load that succeeds clears the fault, from any FSM state. -/
theorem State.cleared_of_loadProgram_loaded {s t : State} {src st : List Char} (h : s.loadProgram src st = (.loaded, t)) :
    t.fault = none ∧ t.fsm = .idle := by
  obtain ⟨a, ws, hst, hws, hfit⟩ := State.fits_of_loadProgram_loaded h
  obtain ⟨u, hu, -, hfault, hfsm, -⟩ := s.loadProgram_loaded hst hws hfit
  obtain rfl : t = u := (Prod.mk.inj (h.symm.trans hu)).2
  exact ⟨hfault, hfsm⟩

theorem loadProgram_of_hostCommand {s t : State} {src : List Char} {st : Option (List Char)} {l : LoadResult}
    (h : hostCommand (.loadProgram src st) s = .next (.load l, t)) :
    s.loadProgram src (st.getD defaultStartText) = (l, t) := by
  simp only [hostCommand, Host.Outcome.next.injEq, Prod.mk.injEq, Reply.load.injEq] at h
  exact Prod.ext h.1 h.2

/-- Settles O42: a running command stops at the test for FAULTED, no other command makes that test, and the end of a load
clears the fault. -/
theorem faultedRefusesToRun : Obligations.FaultedRefusesToRun := fun s hf =>
  ⟨step_faulted hf, hostCommand_runOneCycle_faulted hf, hostCommand_runUntilHaltOrLimit_faulted hf, rfl,
    hostCommand_getRegister_toNat s, hostCommand_getMemory_toNat s, hostCommand_setProgramCounter_toNat s,
    fun _ _ _ h => State.cleared_of_loadProgram_loaded (loadProgram_of_hostCommand h)⟩

/-! ## `runOneCycle` and a HALTED cycle (41_fetch_decode.md R156, R162) -/

/-- `runOneCycle` answers an outcome exactly where a cycle completes with it; in FAULTED neither does. -/
theorem hostCommand_runOneCycle_done_iff {s t : State} {o : CycleOutcome} :
    hostCommand .runOneCycle s = .next (.cycle (.done o), t) ↔ runCycle s = .next (o, t) := by
  by_cases hf : s.fsm = .faulted
  · simp [hostCommand_runOneCycle_faulted hf, runCycle, hf]
  · simp only [hostCommand, runOneCycle, if_neg hf]
    cases hr : runCycle s <;> simp [Answer.reply, Prod.ext_iff]

theorem State.closeCycle_halted {s : State} (h : s.closeCycle.1 = .halted) : s.haltFlag = true := by
  by_contra hflag
  simp [State.closeCycle, hflag] at h

/-- Only a C instruction sets `halt_flag` (44_control.md R231). -/
theorem Effect.setHalt_of_haltFlag {i : Instr} {s t : State} (h : Effect i s t) (hs : s.haltFlag = false)
    (ht : t.haltFlag = true) : ∃ ign, i = .halt ign ∧ t = s.setHalt := by
  cases h with
  | halt ign hi => exact ⟨ign, hi, rfl⟩
  | _ => simp [hs] at ht

/-- A HALTED cycle from IDLE ran a C instruction on the fetched state, and its end cleared the flag. -/
theorem runCycle_halted {s t : State} (hi : s.fsm = .idle) (hs : s.haltFlag = false) (h : runCycle s = .next (.halted, t)) :
    ∃ ign, decodeWord (s.memRead2 s.pc) = .ok (.halt ign) ∧ t = s.fetched.setHalt.closeCycle.2 := by
  obtain ⟨-, ⟨-, ho, -⟩ | ⟨-, -, hexec⟩ | ⟨hx, -⟩⟩ := runCycle_next h
  · cases ho
  · obtain ⟨i, u, hdecode, hu, hclose⟩ | ⟨e, -, ho, -⟩ := executePhase_next hexec
    · have hflag : u.haltFlag = true := State.closeCycle_halted (congrArg Prod.fst hclose).symm
      obtain ⟨ign, rfl, rfl⟩ := (exec_next hu).setHalt_of_haltFlag hs hflag
      exact ⟨ign, hdecode, congrArg Prod.snd hclose⟩
    · cases ho
  · simp [hi] at hx

/-- Settles O60: `runOneCycle` is the cycle, and a HALTED one is a C instruction's, so `pc` is where the fetch left it and the
next fetch starts there. -/
theorem runOneCycleAnswersTheOutcome : Obligations.RunOneCycleAnswersTheOutcome := by
  refine ⟨fun _ => hostCommand_runOneCycle_faulted, fun _ _ _ _ h => hostCommand_runOneCycle_done_iff.mpr h, ?_⟩
  intro s t hi hs h
  obtain ⟨ign, hdecode, rfl⟩ := runCycle_halted hi hs (hostCommand_runOneCycle_done_iff.mp h)
  exact ⟨(opcode_of_decodeWord hdecode).symm, rfl, rfl, rfl, fun hpc => fsmTransition_fetch hpc⟩

end Sys2Proof.Machine
end

section
/-! PROOF. The transfer instructions (42_transfer.md): a word under the mask 0xF000 decodes to the instruction whose operands are
its fields; an instruction that writes one register has the register's frame; and from these opcodes 1 to 4. -/

namespace Sys2Proof

/-! ## Decoding by the fields of the word (30_encoding.md R91, R93) -/

/-- A word decodes to the instruction that has its opcode digit and its twelve operand bits, for the decoder undoes the encoder. -/
theorem decodeWord_of_fields {w : Word} {i : Instr} (hop : digit0 w = i.opcode) (hbits : i.operandBits = digits123 w) :
    decodeWord w = .ok i := by
  have hw : encode i = w := by rw [encode, hbits, ← hop, word_eq_digits]
  rw [← decodeWord_encode i, hw]

end Sys2Proof

namespace Sys2Proof.Machine

/-! ## Writing one register -/

theorem State.readReg_writeReg_of_ne (s : State) {r q : Reg} (h : q ≠ r) (v : Byte) :
    (s.writeReg r v).readReg q = s.readReg q := by
  simp [State.readReg_writeReg, h]

/-- The frame of a register write: the registers by `readReg_writeReg_of_ne`, every other part by its rule in the state laws. -/
theorem State.onlyReg_writeReg (s : State) (d : Reg) (v : Byte) : OnlyReg s (s.writeReg d v) d where
  regs _ h := s.readReg_writeReg_of_ne h v
  pc := s.writeReg_pc d v
  cells := s.memRead_writeReg d v
  out := s.writeReg_out d v
  haltFlag := s.writeReg_haltFlag d v
  fault := s.writeReg_fault d v
  fsm := s.writeReg_fsm d v
  ir := s.writeReg_ir d v
  cycles := s.writeReg_cycles d v
  floatZeroPolicy := s.writeReg_floatZeroPolicy d v

/-- An instruction whose meaning is one register write completes, and the write is its result and its frame. -/
theorem exec_completes_of_writeReg {i : Instr} {s : State} {d : Reg} {v : Byte} (h : exec i s = .next (s.writeReg d v)) :
    ∃ t, exec i s = .next t ∧ t.readReg d = v ∧ OnlyReg s t d :=
  ⟨s.writeReg d v, h, s.readReg_writeReg_same d v, s.onlyReg_writeReg d v⟩

/-! ## The meanings -/

/-- The meaning of LOADM (42_transfer.md R180). -/
theorem exec_loadm (r : Reg) (xy : Addr) (s : State) : exec (.loadm r xy) s = .next (s.writeReg r (s.memRead xy)) := rfl

/-- The meaning of LOADI (42_transfer.md R181). -/
theorem exec_loadi (r : Reg) (xy : Byte) (s : State) : exec (.loadi r xy) s = .next (s.writeReg r xy) := rfl

/-! ## The statements -/

/-- Settles O7: the operands are the fields r and xy, and the meaning is one register write. -/
theorem loadmLoadsTheCell : Obligations.LoadmLoadsTheCell :=
  ⟨fun w hw => decodeWord_of_fields (digit0_of_mask (k := 0x1#4) hw) (digits123_eq_rxy w),
    fun r xy s => exec_completes_of_writeReg (exec_loadm r xy s)⟩

/-- Settles O8: the operands are the fields r and xy, and the meaning is one register write. -/
theorem loadiLoadsTheLiteral : Obligations.LoadiLoadsTheLiteral :=
  ⟨fun w hw => decodeWord_of_fields (digit0_of_mask (k := 0x2#4) hw) (digits123_eq_rxy w),
    fun r xy s => exec_completes_of_writeReg (exec_loadi r xy s)⟩

/-- Settles O9: the operands are the fields r and xy, and the meaning is one write to the cell `xy`, with its rules for the cell,
the frame and `out`. -/
theorem storeWritesTheCell : Obligations.StoreWritesTheCell := by
  refine ⟨fun w hw => decodeWord_of_fields (digit0_of_mask (k := 0x3#4) hw) (digits123_eq_rxy w),
    storeAddress_eq, fun r xy s => ⟨s.memWrite xy (s.readReg r), exec_store r xy s, fun a ha => ?_⟩⟩
  obtain rfl : xy = a := (storeAddress_eq xy).symm.trans ha
  exact ⟨s.memRead_memWrite_same xy _, s.onlyCellAndOut_memWrite xy _, s.memWrite_out xy _⟩

/-- Settles O10: the operands are the digits d1, d2 and d3, and the meaning is one register write, to the register d3. -/
theorem moveCopiesTheRegister : Obligations.MoveCopiesTheRegister :=
  ⟨fun w hw => decodeWord_of_fields (digit0_of_mask (k := 0x4#4) hw) (digits123_eq_rst w),
    fun g r d s => exec_completes_of_writeReg (exec_move g r d s)⟩

end Sys2Proof.Machine
end

section
/-! PROOF. The ALU instructions (43_alu.md): what each byte function computes (R200, R201, R205), and from these opcodes 5 to A,
whose meanings are one register write where they complete. -/

namespace Sys2Proof.Machine

/-! ## The byte functions -/

/-- Two's complement adds as bytes do: the decoding of the operands drops out modulo 256 (43_alu.md R200). -/
theorem addInt_eq_add (a b : Byte) : addInt a b = a + b := by
  rw [addInt, encodeInt_eq_ofInt, decodeInt_eq_toInt, decodeInt_eq_toInt, BitVec.ofInt_add, BitVec.ofInt_toInt,
    BitVec.ofInt_toInt]

/-- The two shifts are the library's rotation, which also takes the count modulo the width (43_alu.md R205). -/
theorem rotateRight_rotateCount (v : Byte) (x : Digit) : rotateRight v (rotateCount x) = v.rotateRight x.toNat := rfl

/-- Below the wrap the bit comes from `n` places up, at the wrap from the low end (43_alu.md R205). -/
theorem getLsbD_rotateRight_rotateCount (v : Byte) (x : Digit) {i : Nat} (hi : i < 8) :
    (rotateRight v (rotateCount x)).getLsbD i = v.getLsbD ((i + x.toNat % 8) % 8) := by
  rw [rotateRight_rotateCount, BitVec.getLsbD_rotateRight]
  by_cases h : i < 8 - x.toNat % 8
  · have hbelow : (i + x.toNat % 8) % 8 = x.toNat % 8 + i := by omega
    simp only [hbelow, h, decide_true, cond_true]
  · have hwrap : (i + x.toNat % 8) % 8 = i - (8 - x.toNat % 8) := by omega
    simp only [hwrap, h, hi, decide_true, decide_false, cond_false, Bool.true_and]

theorem Frac.add_den_pos {p q : Frac} (hp : 0 < p.den) (hq : 0 < q.den) : 0 < (p.add q).den := Nat.mul_pos hp hq

/-- A sum that is not zero is encoded, under either policy (43_alu.md R201). -/
theorem addFloat_of_sum_ne_zero (p : FloatZeroPolicy) {a b : Byte} (h : floatValue a + floatValue b ≠ 0) :
    ∃ v, addFloat p a b = some v ∧ IsFloatEncoding (floatValue a + floatValue b) v := by
  have hnum : ((decodeFloat a).add (decodeFloat b)).num ≠ 0 := (add_decodeFloat_num_eq_zero_iff a b).not.mpr h
  have hsum : ((decodeFloat a).add (decodeFloat b)).value = floatValue a + floatValue b := by
    rw [Frac.value_add (by simp) (by simp), decodeFloat_value, decodeFloat_value]
  rw [← hsum]
  exact encodeFloatNormalises p _ hnum (Frac.add_den_pos (by simp) (by simp))

/-- Under `ENCODE_00` an exact zero sum is 0x00 (40_codec.md R130). -/
theorem addFloat_encode00_of_sum_eq_zero {a b : Byte} (h : floatValue a + floatValue b = 0) :
    addFloat .encode00 a b = some 0x00#8 :=
  encodeFloat_encode00_of_eq_zero ((add_decodeFloat_num_eq_zero_iff a b).mpr h)

theorem Frac.add_comm (p q : Frac) : p.add q = q.add p := by
  rw [Frac.add, Frac.add, Int.add_comm, Nat.mul_comm]

theorem addFloat_comm (p : FloatZeroPolicy) (a b : Byte) : addFloat p a b = addFloat p b a := by
  rw [addFloat, addFloat, Frac.add_comm]

/-! ## The meanings -/

/-- The meaning of ADDI (43_alu.md R200). -/
theorem exec_addi (r a b : Reg) (s : State) :
    exec (.addi r a b) s = .next (s.writeReg r (addInt (s.readReg a) (s.readReg b))) := rfl

/-- The meaning of ADDF where the addition completes (43_alu.md R201). -/
theorem exec_addf_of_addFloat {a b : Reg} {s : State} {v : Byte}
    (h : addFloat s.floatZeroPolicy (s.readReg a) (s.readReg b) = some v) (r : Reg) :
    exec (.addf r a b) s = .next (s.writeReg r v) := by
  simp only [exec, execAddf, h]

/-- The meaning of OR (43_alu.md R202). -/
theorem exec_or (r a b : Reg) (s : State) :
    exec (.or r a b) s = .next (s.writeReg r (s.readReg a ||| s.readReg b)) := rfl

/-- The meaning of AND (43_alu.md R203). -/
theorem exec_and (r a b : Reg) (s : State) :
    exec (.and r a b) s = .next (s.writeReg r (s.readReg a &&& s.readReg b)) := rfl

/-- The meaning of XOR (43_alu.md R204). -/
theorem exec_xor (r a b : Reg) (s : State) :
    exec (.xor r a b) s = .next (s.writeReg r (s.readReg a ^^^ s.readReg b)) := rfl

/-- An instruction whose meaning is one register write completes with the register's frame, and what holds of each bit of the
written byte holds of the register. -/
theorem exec_completes_bits_of_writeReg {i : Instr} {s : State} {d : Reg} {v : Byte} {bit : Nat → Bool}
    (h : exec i s = .next (s.writeReg d v)) (hbit : ∀ k < 8, v.getLsbD k = bit k) :
    ∃ t, exec i s = .next t ∧ OnlyReg s t d ∧ ∀ k < 8, (t.readReg d).getLsbD k = bit k := by
  obtain ⟨t, ht, rfl, hframe⟩ := exec_completes_of_writeReg h
  exact ⟨t, ht, hframe, hbit⟩

/-! ## The statements -/

/-- Settles O12: the fraction that is encoded is zero exactly when the rational sum is, which selects the case. -/
theorem addfAddsExactly : Obligations.AddfAddsExactly := by
  refine ⟨fun w hw => decodeWord_of_fields (digit0_of_mask (k := 0x6#4) hw) (digits123_eq_rst w),
    fun r a b s => ⟨fun hne => ?nonzero, fun hzero hp => ?encode00, fun hzero hp => exec_addf_stuck hp hzero r⟩⟩
  case nonzero =>
    obtain ⟨v, hv, henc⟩ := addFloat_of_sum_ne_zero s.floatZeroPolicy hne
    obtain ⟨t, ht, rfl, hframe⟩ := exec_completes_of_writeReg (exec_addf_of_addFloat hv r)
    exact ⟨t, ht, henc, hframe⟩
  case encode00 =>
    have hv : addFloat s.floatZeroPolicy (s.readReg a) (s.readReg b) = some 0x00#8 :=
      hp ▸ addFloat_encode00_of_sum_eq_zero hzero
    exact exec_completes_of_writeReg (exec_addf_of_addFloat hv r)

/-- Settles O14: the operands are the digits, and the meaning is one register write, of the rotated byte. -/
theorem rorRotatesInPlace : Obligations.RorRotatesInPlace :=
  ⟨fun w hw => decodeWord_of_fields (digit0_of_mask (k := 0xA#4) hw) (digits123_eq_rst w),
    fun r g x s => exec_completes_bits_of_writeReg (exec_ror r g x s) fun _ hk => getLsbD_rotateRight_rotateCount _ x hk⟩

/-- Settles O11: the encoded sum of the decoded operands is the sum of the bytes. -/
theorem addiAddsModulo256 : Obligations.AddiAddsModulo256 := by
  refine ⟨fun w hw => decodeWord_of_fields (digit0_of_mask (k := 0x5#4) hw) (digits123_eq_rst w), fun r a b s => ?_⟩
  obtain ⟨t, ht, hres, hframe⟩ := exec_completes_of_writeReg (exec_addi r a b s)
  exact ⟨t, ht, hres, by rw [hres, addInt_eq_add, BitVec.toNat_add], hframe⟩

/-- Settles O13: each meaning is one register write, of a byte whose bits the library's operation gives. -/
theorem bitwiseOpsWorkBitByBit : Obligations.BitwiseOpsWorkBitByBit :=
  ⟨fun w hw => decodeWord_of_fields (digit0_of_mask (k := 0x7#4) hw) (digits123_eq_rst w),
    fun w hw => decodeWord_of_fields (digit0_of_mask (k := 0x8#4) hw) (digits123_eq_rst w),
    fun w hw => decodeWord_of_fields (digit0_of_mask (k := 0x9#4) hw) (digits123_eq_rst w),
    fun r a b s =>
      ⟨exec_completes_bits_of_writeReg (exec_or r a b s) fun _ _ => BitVec.getLsbD_or,
        exec_completes_bits_of_writeReg (exec_and r a b s) fun _ _ => BitVec.getLsbD_and,
        exec_completes_bits_of_writeReg (exec_xor r a b s) fun _ _ => BitVec.getLsbD_xor⟩⟩

/-- Settles O25: the addition of fractions commutes, and ADDF depends on its sources through their sum alone. -/
theorem addfCommutes : Obligations.AddfCommutes := fun r a b s => by
  simp only [exec, execAddf, addFloat_comm s.floatZeroPolicy (s.readReg a)]

end Sys2Proof.Machine
end

section
/-! PROOF. The control instructions (44_control.md): a branch writes `pc` alone, by its condition (R230, R232); HALT sets the halt
flag, which ends its cycle (R231). -/

namespace Sys2Proof.Machine

/-! ## Branching -/

/-- The frame of a branch, taken or not, by its rules in the state laws. -/
theorem State.onlyPc_branchIf (s : State) (c : Bool) (xy : Addr) : OnlyPc s (s.branchIf c xy) where
  regs := s.readReg_branchIf c xy
  cells := s.memRead_branchIf c xy
  out := s.branchIf_out c xy
  haltFlag := s.branchIf_haltFlag c xy
  fault := s.branchIf_fault c xy
  fsm := s.branchIf_fsm c xy
  ir := s.branchIf_ir c xy
  cycles := s.branchIf_cycles c xy
  floatZeroPolicy := s.branchIf_floatZeroPolicy c xy

/-- An instruction whose meaning is one branch completes with the branch's frame, and `pc` becomes the target exactly where the
condition's meaning `p` holds. -/
theorem exec_completes_of_branchIf {i : Instr} {s : State} {c : Bool} {xy : Addr} {p : Prop}
    (h : exec i s = .next (s.branchIf c xy)) (hc : c = true ↔ p) :
    ∃ t, exec i s = .next t ∧ OnlyPc s t ∧ (p → t.pc = xy) ∧ (¬p → t.pc = s.pc) := by
  refine ⟨s.branchIf c xy, h, s.onlyPc_branchIf c xy, fun hp => ?taken, fun hp => ?notTaken⟩
  case taken => rw [State.branchIf_pc, if_pos (hc.mpr hp)]
  case notTaken => rw [State.branchIf_pc, if_neg (hc.not.mpr hp)]

/-! ## The conditions -/

theorem State.condEqual_iff (s : State) (r : Reg) : s.condEqual r = true ↔ s.readReg 0#4 = s.readReg r := beq_iff_eq

/-- The comparison of opcode D is that of the two's-complement integers (44_control.md R232). -/
theorem State.condLess_iff (s : State) (r : Reg) :
    s.condLess r = true ↔ (s.readReg 0#4).toInt < (s.readReg r).toInt := by
  rw [State.condLess, decide_eq_true_iff, decodeInt_eq_toInt, decodeInt_eq_toInt]

/-! ## The meaning of JLT -/

/-- The meaning of JLT (44_control.md R232). -/
theorem exec_jlt (r : Reg) (xy : Addr) (s : State) : exec (.jlt r xy) s = .next (s.branchIf (s.condLess r) xy) := rfl

/-! ## A cycle that halts -/

theorem decodeWord_halt_of_mask {w : Word} (hw : w &&& 0xF000#16 = 0xC000#16) : decodeWord w = .ok (.halt (digits123 w)) :=
  decodeWord_of_fields (digit0_of_mask (k := 0xC#4) hw) rfl

/-- A cycle from IDLE whose fetch is possible and whose word decodes runs the instruction on the fetched state. -/
theorem runCycle_of_decoded {s : State} {i : Instr} (hi : s.fsm = .idle) (hpc : s.pc.toNat ≤ 253)
    (hw : decodeWord (s.memRead2 s.pc) = .ok i) : runCycle s = closeOutcome (exec i s.fetched) := by
  rw [runCycle_fetched hi hpc, executePhase_ok (s := s.fetched) hw]

/-- The end of a cycle observes the halt flag (41_fetch_decode.md R162). -/
theorem State.closeCycle_setHalt (s : State) : s.setHalt.closeCycle = (.halted, s.setHalt.closeCycle.2) := rfl

/-- What a halting cycle from IDLE leaves: the fetch's `pc`, a cleared flag, and, `ir` aside, all else as it was. -/
theorem State.closeCycle_setHalt_fetched {s : State} (hi : s.fsm = .idle) :
    { s.fetched.setHalt.closeCycle.2 with ir := s.ir } = { s with pc := s.pc + 2#8, haltFlag := false } := by
  cases s
  subst hi
  rfl

/-! ## The statements -/

/-- Settles O15: the operands are the fields r and xy, and the meaning is a branch on the equality of the two registers. -/
theorem jeqBranchesIfEqual : Obligations.JeqBranchesIfEqual :=
  ⟨fun w hw => decodeWord_of_fields (digit0_of_mask (k := 0xB#4) hw) (digits123_eq_rxy w),
    fun r xy s => exec_completes_of_branchIf (exec_jeq r xy s) (s.condEqual_iff r)⟩

/-- Settles O16: the operands are the fields r and xy, and the meaning is a branch on the signed comparison of the two registers. -/
theorem jltBranchesIfLess : Obligations.JltBranchesIfLess := by
  refine ⟨fun w hw => decodeWord_of_fields (digit0_of_mask (k := 0xD#4) hw) (digits123_eq_rxy w), fun r xy s => ?_⟩
  obtain ⟨t, ht, hframe, htaken, hnot⟩ := exec_completes_of_branchIf (exec_jlt r xy s) (s.condLess_iff r)
  exact ⟨t, ht, hframe, htaken, fun hle => hnot (Int.not_lt.mpr hle)⟩

/-- Settles O17: the cycle runs HALT on the fetched state, and its end observes and clears the flag that HALT set. -/
theorem haltEndsTheCycleHalted : Obligations.HaltEndsTheCycleHalted := by
  refine ⟨fun w hw => decodeWord_halt_of_mask hw, exec_halt, fun s hi hpc hw => ?_⟩
  refine ⟨s.fetched.setHalt.closeCycle.2, ?_, State.closeCycle_setHalt_fetched hi⟩
  rw [runCycle_of_decoded hi hpc (decodeWord_halt_of_mask hw), exec_halt, closeOutcome, State.closeCycle_setHalt]

end Sys2Proof.Machine
end

section
/-! PROOF. Errors and faults (60_exceptions.md): OutOfRange as a reply (R251), the two faults of a cycle (R252, R254), the
malformed token of a load (R256), and what a latched fault outlasts (R259). -/

namespace Sys2Proof

/-- The three digits that no opcode has are rejected (30_encoding.md R94). -/
theorem decodeWord_of_digit0_unused {w : Word} (h : digit0 w = 0x0#4 ∨ digit0 w = 0xE#4 ∨ digit0 w = 0xF#4) :
    decodeWord w = .error (.unknownOpcode w) := by
  unfold decodeWord
  rcases h with h | h | h <;> rw [h] <;> rfl

/-- An integer in the range of a bit vector is the value of one. -/
theorem exists_eq_toNat {w : Nat} {i : Int} (h0 : 0 ≤ i) (hw : i < 2 ^ w) : ∃ a : BitVec w, i = a.toNat := by
  lift i to Nat using h0
  exact ⟨BitVec.ofNat w i, by rw [BitVec.toNat_ofNat, Nat.mod_eq_of_lt (by exact_mod_cast hw)]⟩

end Sys2Proof

namespace Sys2Proof.Machine

/-! ## The faults of a cycle (60_exceptions.md R252, R254) -/

/-- Settles O36: the fetch is checked before anything is read, and fault entry writes `fault` and `fsm` alone. -/
theorem fetchPastTheEndFaults : Obligations.FetchPastTheEndFaults := fun _ hi hpc => runCycle_exhausted hi (by omega)

/-- A cycle from IDLE whose fetch is possible and whose word is rejected raises on the fetched state. -/
theorem runCycle_of_rejected {s : State} {e : Reject} (hi : s.fsm = .idle) (hpc : s.pc.toNat ≤ 253)
    (hw : decodeWord (s.memRead2 s.pc) = .error e) : runCycle s = .next (.fault .unknownOpcode, s.fetched.raiseUnknown) := by
  rw [runCycle_fetched hi hpc, executePhase_error (s := s.fetched) hw]

/-- The address that UnknownOpcode records is the one the word was fetched from. -/
theorem State.raiseUnknown_fetched (s : State) :
    s.fetched.raiseUnknown = s.fetched.raise (.unknownOpcode (s.memRead2 s.pc) s.pc) := by
  rw [State.raiseUnknown, State.fetched_pc, BitVec.add_sub_cancel, State.fetched_ir]

/-- Settles O37: the fetch has set `pc` and `ir`, and fault entry writes `fault` and `fsm` alone. -/
theorem unknownOpcodeFaults : Obligations.UnknownOpcodeFaults := by
  intro s hi hpc hdigit
  refine ⟨s.fetched.raiseUnknown, runCycle_of_rejected hi hpc (decodeWord_of_digit0_unused hdigit), ?_⟩
  rw [State.raiseUnknown_fetched]
  rfl

/-! ## A malformed token (60_exceptions.md R256) -/

theorem Loaded.raise {s t : State} {a : Addr} {ws : List Word} (h : Loaded s t a ws) (f : FaultRecord) :
    Loaded s (t.raise f) a ws :=
  ⟨h.regs, h.cells, h.out, h.pc, h.haltFlag, h.floatZeroPolicy⟩

/-- Settles O53: the load reaches the malformed token after writing the words before it, and fails there whatever room is left. -/
theorem malformedTokenStopsTheLoad : Obligations.MalformedTokenStopsTheLoad := by
  intro s src st a good rest ws bad hst hsrc hgood hbad hfit
  obtain ⟨t, ht, hloaded, hcycles⟩ := s.loadProgram_append hst hsrc hgood hfit
  rw [State.loadTokens_malformed hbad] at ht
  exact ⟨_, ht, hloaded.raise _, rfl, rfl, hcycles⟩

/-! ## OutOfRange (60_exceptions.md R251) -/

/-- A command that checks its index against the values of a bit vector answers OutOfRange for an index outside them only. -/
theorem outOfRange_of_boundsCheck {w : Nat} (c : Int → HostCommand) {s t : State} {i : Int} {p : Space} {e : OutOfRange}
    {reply : BitVec w → Reply} {after : BitVec w → State}
    (hin : ∀ a : BitVec w, hostCommand (c a.toNat) s = .next (reply a, after a)) (hreply : ∀ a e, reply a ≠ .outOfRange e)
    (hout : i < 0 ∨ 2 ^ w ≤ i → hostCommand (c i) s = .next (.outOfRange ⟨p, i⟩, s))
    (h : hostCommand (c i) s = .next (.outOfRange e, t)) : t = s ∧ e = ⟨p, i⟩ ∧ (i < 0 ∨ 2 ^ w ≤ i) := by
  by_cases hi : i < 0 ∨ 2 ^ w ≤ i
  · rw [hout hi] at h
    cases h
    exact ⟨rfl, rfl, hi⟩
  · push Not at hi
    obtain ⟨a, rfl⟩ := exists_eq_toNat hi.1 hi.2
    rw [hin] at h
    injection h with h
    exact absurd (Prod.mk.inj h).1 (hreply a e)

/-- The reply of a command that completes is its own result. -/
theorem Answer.reply_next {α : Type} {f : α → Reply} {x : Answer α} {r : Reply} {t : State}
    (h : Answer.reply f x = .next (r, t)) : ∃ y, r = f y ∧ x = .next (y, t) := by
  cases x <;> cases h
  exact ⟨_, rfl, rfl⟩

/-- Settles O44: each bounds check fails outside its range only, and the other commands reply with a result of their own kind. -/
theorem outOfRangeIsOnlyAReply : Obligations.OutOfRangeIsOnlyAReply := by
  refine ⟨fun s _ hi => hostCommand_getRegister_outOfRange s hi, fun s _ hi => hostCommand_getMemory_outOfRange s hi,
    fun s _ hi => hostCommand_setProgramCounter_outOfRange s hi, fun c s t e h => ?_⟩
  cases c with
  | setProgramCounter i =>
    obtain ⟨rfl, rfl, hi⟩ := outOfRange_of_boundsCheck .setProgramCounter (hostCommand_setProgramCounter_toNat s) (by simp)
      (fun hi => hostCommand_setProgramCounter_outOfRange s (by omega)) h
    have hbounds : i < 0 ∨ 255 < i := by omega
    exact ⟨rfl, .inl ⟨rfl, rfl, hbounds⟩⟩
  | getRegister i =>
    obtain ⟨rfl, rfl, hi⟩ := outOfRange_of_boundsCheck .getRegister (hostCommand_getRegister_toNat s) (by simp)
      (fun hi => hostCommand_getRegister_outOfRange s (by omega)) h
    have hbounds : i < 0 ∨ 15 < i := by omega
    exact ⟨rfl, .inr (.inl ⟨rfl, rfl, hbounds⟩)⟩
  | getMemory i =>
    obtain ⟨rfl, rfl, hi⟩ := outOfRange_of_boundsCheck .getMemory (hostCommand_getMemory_toNat s) (by simp)
      (fun hi => hostCommand_getMemory_outOfRange s (by omega)) h
    have hbounds : i < 0 ∨ 255 < i := by omega
    exact ⟨rfl, .inr (.inr ⟨rfl, rfl, hbounds⟩)⟩
  | runOneCycle => obtain ⟨y, hy, -⟩ := Answer.reply_next h; cases hy
  | runUntilHaltOrLimit m => obtain ⟨y, hy, -⟩ := Answer.reply_next h; cases hy
  | loadProgram src st => cases h
  | snapshot => cases h

/-! ## What a load does to the fault (60_exceptions.md R259) -/

/-- A load ends by clearing the fault or by latching its own. -/
theorem State.loadTokens_ends (tks : List (List Char)) (n a : Nat) (s : State) :
    (∃ u, State.loadTokens tks n a s = (.loaded, State.clearFault u)) ∨
      ∃ u f, State.loadTokens tks n a s = State.failLoad u f := by
  induction tks generalizing n a s with
  | nil => exact .inl ⟨s, rfl⟩
  | cons tk tks ih =>
    cases hw : parseWord (tk.map upperChar) with
    | none => exact .inr ⟨s, _, State.loadTokens_malformed hw tks n a s⟩
    | some w =>
      by_cases hroom : a + 2 ≤ 256
      · rw [State.loadTokens_word hw hroom]
        exact ih _ _ _
      · exact .inr ⟨s, _, State.loadTokens_noRoom hw (by omega) tks n s⟩

theorem State.loadProgram_ends (s : State) (src st : List Char) :
    (∃ u, s.loadProgram src st = (.loaded, State.clearFault u)) ∨ ∃ u f, s.loadProgram src st = State.failLoad u f := by
  cases hst : parseStart st with
  | none => exact .inr ⟨s, _, State.loadProgram_of_start_none hst s src⟩
  | some a =>
    rw [State.loadProgram_of_start hst]
    exact State.loadTokens_ends _ _ _ _

theorem State.memWrite_withFault (s : State) (g : Option FaultRecord) (a : Addr) (v : Byte) :
    State.memWrite { s with fault := g } a v = { s.memWrite a v with fault := g } := by
  unfold State.memWrite; split <;> rfl

theorem State.loadWord_withFault (s : State) (g : Option FaultRecord) (a : Addr) (w : Word) :
    State.loadWord { s with fault := g } a w = { s.loadWord a w with fault := g } := by
  simp only [State.loadWord, State.memWrite_withFault]

/-- No word of a load reads the fault, and each end of a load writes it. -/
theorem State.loadTokens_withFault (tks : List (List Char)) (n a : Nat) (s : State) (g : Option FaultRecord) :
    State.loadTokens tks n a { s with fault := g } = State.loadTokens tks n a s := by
  induction tks generalizing n a s with
  | nil => rfl
  | cons tk tks ih =>
    cases hw : parseWord (tk.map upperChar) with
    | none => rw [State.loadTokens_malformed hw, State.loadTokens_malformed hw]; rfl
    | some w =>
      by_cases hroom : a + 2 ≤ 256
      · rw [State.loadTokens_word hw hroom, State.loadTokens_word hw hroom, State.loadWord_withFault, ih]
      · have hfull : 255 ≤ a := by omega
        rw [State.loadTokens_noRoom hw hfull, State.loadTokens_noRoom hw hfull]; rfl

theorem State.loadProgram_withFault (s : State) (src st : List Char) (g : Option FaultRecord) :
    State.loadProgram { s with fault := g } src st = s.loadProgram src st := by
  cases hst : parseStart st with
  | none => rw [State.loadProgram_of_start_none hst, State.loadProgram_of_start_none hst]; rfl
  | some a =>
    rw [State.loadProgram_of_start hst, State.loadProgram_of_start hst]
    exact State.loadTokens_withFault _ _ _ (s.resetForLoad a) g

theorem hostCommand_loadProgram_withFault (src : List Char) (st : Option (List Char)) (s : State) (g : Option FaultRecord) :
    hostCommand (.loadProgram src st) { s with fault := g } = hostCommand (.loadProgram src st) s := by
  simp only [hostCommand, State.loadProgram_withFault]

theorem hostCommand_loadProgram_ends {src : List Char} {st : Option (List Char)} {s t : State} {r : Reply}
    (h : hostCommand (.loadProgram src st) s = .next (r, t)) :
    (r = .load .loaded ∧ t.fault = none ∧ t.fsm = .idle) ∨
      ∃ f, r = .load (.fault f.kind) ∧ t.fault = some f ∧ t.fsm = .faulted := by
  rcases s.loadProgram_ends src (st.getD defaultStartText) with ⟨u, hu⟩ | ⟨u, f, hu⟩
  · simp only [hostCommand, hu] at h
    cases h
    exact .inl ⟨rfl, rfl, rfl⟩
  · simp only [hostCommand, hu] at h
    cases h
    exact .inr ⟨f, rfl, rfl, rfl⟩

/-- In FAULTED a command that is no load changes at most `pc`. -/
theorem fault_kept_of_hostCommand {c : HostCommand} {s t : State} {r : Reply} (hf : s.fsm = .faulted)
    (hc : ∀ src st, c ≠ .loadProgram src st) (h : hostCommand c s = .next (r, t)) :
    t.fault = s.fault ∧ t.fsm = .faulted := by
  rcases hostCommand_next h with (rfl | ⟨p, rfl⟩) | ⟨src, st, rfl⟩ | rfl | ⟨m, rfl⟩
  · exact ⟨rfl, hf⟩
  · exact ⟨rfl, hf⟩
  · exact absurd rfl (hc src st)
  · rw [hostCommand_runOneCycle_faulted hf] at h
    cases h
    exact ⟨rfl, hf⟩
  · rw [hostCommand_runUntilHaltOrLimit_faulted hf] at h
    cases h
    exact ⟨rfl, hf⟩

/-- Settles O43: without a load the running commands are refused and the others change at most `pc`; a load does not read the
fault, and its end writes it. -/
theorem onlyALoadReplacesAFault : Obligations.OnlyALoadReplacesAFault := by
  intro c s t r hf h
  by_cases hc : ∀ src st, c ≠ .loadProgram src st
  · obtain ⟨hfault, hfsm⟩ := fault_kept_of_hostCommand hf hc h
    refine .inl ⟨hc, hfault, hfsm, ?cycle, ?run⟩
    case cycle =>
      rintro rfl
      rw [hostCommand_runOneCycle_faulted hf] at h
      cases h
      rfl
    case run =>
      rintro m rfl
      rw [hostCommand_runUntilHaltOrLimit_faulted hf] at h
      cases h
      rfl
  · push Not at hc
    obtain ⟨src, st, rfl⟩ := hc
    exact .inr ⟨src, st, rfl, fun g => (hostCommand_loadProgram_withFault src st s g).trans h, hostCommand_loadProgram_ends h⟩

end Sys2Proof.Machine
end

section
/-! PROOF. A program that does not fit: the load stops at the first token without room (70_reset_and_hazards.md R283). -/

namespace Sys2Proof.Machine

/-- Settles O52: the `(256 - a) / 2` words before it still fit and leave at most one cell, too little room for the token. -/
theorem loadOverflowStopsTheLoad : Obligations.LoadOverflowStopsTheLoad := by
  intro s src st a good rest ws tk w hst hsrc hgood hw hlen
  have hfit : a.toNat + 2 * ws.length ≤ 256 := by omega
  have hfull : 255 ≤ a.toNat + 2 * ws.length := by omega
  obtain ⟨t, ht, hloaded, hcycles⟩ := s.loadProgram_append hst hsrc hgood hfit
  rw [State.loadTokens_noRoom hw hfull] at ht
  exact ⟨_, ht, hloaded.raise _, rfl, rfl, hcycles⟩

end Sys2Proof.Machine
end

section
/-! PROOF. Encoding and decoding are inverse (30_encoding.md R90 to R93): the decoder undoes the encoder on words and on bytes, a
word that decodes is the encoding of what it decodes to, and the mask 0xF000 selects the instruction (R96). -/

namespace Sys2Proof

/-! ## Bytes -/

/-- Decoding two bytes is decoding the word they join to, whatever bytes follow (30_encoding.md R90). -/
theorem decodeBytes_cons_cons {hi lo : Byte} {i : Instr} (h : decodeWord (joinBytes hi lo) = .ok i) (rest : List Byte) :
    decodeBytes (hi :: lo :: rest) = .ok (i, rest) := by
  simp only [decodeBytes, h]

theorem decodeBytes_encodeBytes (i : Instr) (rest : List Byte) : decodeBytes (encodeBytes i ++ rest) = .ok (i, rest) := by
  refine decodeBytes_cons_cons ?_ rest
  rw [joinBytes_highByte_lowByte, decodeWord_encode]

/-! ## Words that decode -/

/-- Each row of the table reads all twelve bits below the opcode digit, for the fields of its format meet (30_encoding.md R91). -/
theorem operandBits_of_decodeWord {w : Word} {i : Instr} (h : decodeWord w = .ok i) : i.operandBits = digits123 w := by
  unfold decodeWord at h
  split at h <;> cases h
  case h_4 | h_5 | h_6 | h_7 | h_8 | h_9 | h_10 => exact digits123_eq_rst w
  case h_12 => rfl
  all_goals exact digits123_eq_rxy w

theorem encode_of_decodeWord {w : Word} {i : Instr} (h : decodeWord w = .ok i) : encode i = w := by
  rw [encode, opcode_of_decodeWord h, operandBits_of_decodeWord h, word_eq_digits]

theorem digit0_bounds_of_decodeWord {w : Word} {i : Instr} (h : decodeWord w = .ok i) :
    1 ≤ (digit0 w).toNat ∧ (digit0 w).toNat ≤ 13 := by
  have hlegal : wordLegal w = true := by rw [← decodeWord_isOk, h]; rfl
  simpa only [wordLegal, ← digit0_toNat, Bool.and_eq_true, decide_eq_true_eq] using hlegal

/-- The mask 0xF000 leaves the opcode digit and clears the bits below it (30_encoding.md R96). -/
theorem and_mask_eq (w : Word) : w &&& 0xF000#16 = digit0 w ++ 0#12 := by
  have hlow : digits123 (w &&& 0xF000#16) = 0#12 := by
    rw [digits123, BitVec.extractLsb'_and, show (0xF000#16).extractLsb' 0 12 = 0#12 by decide, BitVec.and_zero]
  rw [← word_eq_digits (w &&& 0xF000#16), digit0_mask, hlow]

/-! ## The statements -/

/-- Settles O1: the decoder undoes the encoder on the word, which the two bytes join to. -/
theorem encodedInstructionsDecodeBack : Obligations.EncodedInstructionsDecodeBack :=
  fun i rest => ⟨decodeWord_encode i, decodeBytes_encodeBytes i rest⟩

/-- Settles O2: the decoded instruction has the word's opcode digit and its twelve bits below. -/
theorem decodedWordsEncodeBack : Obligations.DecodedWordsEncodeBack := fun _ _ => encode_of_decodeWord

/-- Settles O3: the mask leaves exactly the opcode digit, and the digits 1 to D are those that decode. -/
theorem maskSelectsTheInstruction : Obligations.MaskSelectsTheInstruction := by
  intro w k
  constructor
  · rintro ⟨i, hi, rfl⟩
    have hbounds := digit0_bounds_of_decodeWord hi
    rw [opcode_of_decodeWord hi]
    exact ⟨hbounds.1, hbounds.2, and_mask_eq w⟩
  · rintro ⟨hlo, hhi, hmask⟩
    obtain rfl : digit0 w = k := digit0_of_mask hmask
    obtain ⟨i, hi⟩ := exists_decodeWord_of_digit0 ⟨hlo, hhi⟩
    exact ⟨i, hi, opcode_of_decodeWord hi⟩

/-- Settles O5: ten fixed words, each evaluated by the decoder. -/
theorem workedEncodingsDecode : Obligations.WorkedEncodingsDecode := by
  unfold Obligations.WorkedEncodingsDecode
  decide

end Sys2Proof
end

section
/-! PROOF. The rules over all instructions (10_state.md R36; 41_fetch_decode.md R153, R163), from the inversion lemmas of `exec`:
what an effect changes, what it leaves, what it reads, and when there is none. -/

namespace Sys2Proof.Machine

/-! ## What an effect changes -/

/-- An instruction with a destination changes that register alone. -/
theorem Effect.onlyReg {i : Instr} {s t : State} (h : Effect i s t) {d : Reg} (hd : destinationReg i = some d) :
    OnlyReg s t d := by
  cases h with
  | reg d' v hd' =>
    obtain rfl : d' = d := Option.some.inj (hd'.symm.trans hd)
    exact s.onlyReg_writeReg d' v
  | cell _ _ hi | jumpEq _ _ hi | jumpLt _ _ hi | halt _ hi => subst hi; cases hd
  | stay _ _ hi => rcases hi with rfl | rfl <;> cases hd

theorem Effect.readReg_of_no_destination {i : Instr} {s t : State} (h : Effect i s t) (hd : destinationReg i = none)
    (q : Reg) : t.readReg q = s.readReg q := by
  cases h with
  | reg d v hd' => rw [hd] at hd'; cases hd'
  | _ => simp

/-- A STORE is the write of its register to its cell. -/
theorem Effect.eq_memWrite_of_store {r : Reg} {xy : Addr} {s t : State} (h : Effect (.store r xy) s t) :
    t = s.memWrite (storeAddress xy) (s.readReg r) := by
  cases h with
  | cell _ _ hi => cases hi; rfl
  | reg _ _ hi | jumpEq _ _ hi | jumpLt _ _ hi | halt _ hi => cases hi
  | stay _ _ hi => rcases hi with hi | hi <;> cases hi

/-- A form that is no STORE leaves memory and the output stream. -/
theorem Effect.mem_out_of_ne_store {i : Instr} {s t : State} (h : Effect i s t) (hi : ∀ r xy, i ≠ .store r xy) :
    t.mem = s.mem ∧ t.out = s.out := by
  cases h with
  | cell r xy hstore => exact absurd hstore (hi r xy)
  | _ => simp

theorem State.onlyPc_setPc (s : State) (xy : Addr) : OnlyPc s (s.setPc xy) := s.onlyPc_branchIf true xy

theorem OnlyPc.refl (s : State) : OnlyPc s s := s.onlyPc_branchIf false 0#8

/-- A branch changes `pc` alone. -/
theorem Effect.onlyPc {i : Instr} {s t : State} (h : Effect i s t) {r : Reg} {xy : Addr} (hi : i = .jeq r xy ∨ i = .jlt r xy) :
    OnlyPc s t := by
  cases h with
  | jumpEq | jumpLt => exact s.onlyPc_setPc _
  | stay => exact .refl s
  | reg _ _ hi' => rcases hi with rfl | rfl <;> cases hi'
  | cell _ _ hi' | halt _ hi' => subst hi'; rcases hi with hi | hi <;> cases hi

theorem Effect.eq_setHalt_of_halt {g : BitVec 12} {s t : State} (h : Effect (.halt g) s t) : t = s.setHalt := by
  cases h with
  | halt => rfl
  | reg _ _ hi | cell _ _ hi | jumpEq _ _ hi | jumpLt _ _ hi => cases hi
  | stay _ _ hi => rcases hi with hi | hi <;> cases hi

/-- Only HALT writes the halt flag (10_state.md R29, R36). -/
theorem Effect.haltFlag {i : Instr} {s t : State} (h : Effect i s t) : t.haltFlag = s.haltFlag ∨ ∃ g, i = .halt g := by
  cases h with
  | halt g hi => exact .inr ⟨g, hi⟩
  | _ => exact .inl (by simp)

/-- Settles O31: each clause is the frame of the effects that its instructions can have. -/
theorem atMostOneRegisterOrCell : Obligations.AtMostOneRegisterOrCell := by
  intro i s t h
  have heff := exec_next h
  refine ⟨fun d hd => heff.onlyReg hd, heff.readReg_of_no_destination, ?store, ?noStore, fun r xy => heff.onlyPc, ?halt⟩
  case store =>
    rintro r xy rfl
    obtain rfl := heff.eq_memWrite_of_store
    exact ⟨s.onlyCellAndOut_memWrite _ _, fun hne => by rw [State.memWrite_out, if_neg hne]⟩
  case noStore =>
    intro hi
    obtain ⟨hmem, hout⟩ := heff.mem_out_of_ne_store hi
    exact ⟨fun a => by rw [State.memRead, State.memRead, hmem], hout⟩
  case halt =>
    rintro g rfl
    exact heff.eq_setHalt_of_halt

/-- Settles O32: no effect writes the control state but HALT's, which sets the halt flag. -/
theorem instructionsKeepControlState : Obligations.InstructionsKeepControlState := by
  intro i s t h
  have heff := exec_next h
  exact ⟨heff.fault, heff.fsm, heff.ir, heff.cycles, heff.floatZeroPolicy, heff.haltFlag⟩

/-! ## What an instruction reads (10_state.md R36) -/

/-- The two states agree in all that an instruction may read. -/
structure SameInputs (s s' : State) : Prop where
  regs : s'.regs = s.regs
  pc : s'.pc = s.pc
  mem : s'.mem = s.mem
  floatZeroPolicy : s'.floatZeroPolicy = s.floatZeroPolicy

section
variable {s s' : State} (h : SameInputs s s')
include h

theorem SameInputs.readReg (q : Reg) : s'.readReg q = s.readReg q := by rw [State.readReg, State.readReg, h.regs]

theorem SameInputs.memRead (a : Addr) : s'.memRead a = s.memRead a := by rw [State.memRead, State.memRead, h.mem]

theorem SameInputs.addFloat (a b : Reg) :
    addFloat s'.floatZeroPolicy (s'.readReg a) (s'.readReg b) = addFloat s.floatZeroPolicy (s.readReg a) (s.readReg b) := by
  rw [h.floatZeroPolicy, h.readReg, h.readReg]

theorem SameInputs.writeReg (d : Reg) {v v' : Byte} (hv : v' = v) : SameInputs (s.writeReg d v) (s'.writeReg d v') :=
  ⟨by simp [h.regs, hv], h.pc, h.mem, h.floatZeroPolicy⟩

theorem SameInputs.memWrite (a : Addr) {v v' : Byte} (hv : v' = v) : SameInputs (s.memWrite a v) (s'.memWrite a v') :=
  ⟨by simp [h.regs], by simp [h.pc], by simp [h.mem, hv], by simp [h.floatZeroPolicy]⟩

theorem SameInputs.branchIf {c c' : Bool} (hc : c' = c) (xy : Addr) : SameInputs (s.branchIf c xy) (s'.branchIf c' xy) :=
  ⟨by simp [h.regs], by simp [h.pc, hc], by simp [h.mem], by simp [h.floatZeroPolicy]⟩

theorem SameInputs.condEqual (r : Reg) : s'.condEqual r = s.condEqual r := by
  rw [State.condEqual, State.condEqual, h.readReg, h.readReg]

theorem SameInputs.condLess (r : Reg) : s'.condLess r = s.condLess r := by
  rw [State.condLess, State.condLess, h.readReg, h.readReg]

/-- An instruction that completes on one of the states completes on the other, and they still agree: each meaning is one update,
of a value that is computed from what they agree in. -/
theorem SameInputs.exec_next {i : Instr} {t : State} (hx : exec i s = .next t) :
    ∃ t', exec i s' = .next t' ∧ SameInputs t t' := by
  cases i with
  | loadm r xy => cases hx; exact ⟨_, rfl, h.writeReg r (h.memRead xy)⟩
  | loadi r xy => cases hx; exact ⟨_, rfl, h.writeReg r rfl⟩
  | store r xy => cases hx; exact ⟨_, rfl, h.memWrite xy (h.readReg r)⟩
  | move g r d => cases hx; exact ⟨_, rfl, h.writeReg d (h.readReg r)⟩
  | addi r a b => cases hx; exact ⟨_, rfl, h.writeReg r (congrArg₂ addInt (h.readReg a) (h.readReg b))⟩
  | addf r a b =>
    cases hsum : Machine.addFloat s.floatZeroPolicy (s.readReg a) (s.readReg b) with
    | none => simp [exec, execAddf, hsum] at hx
    | some v =>
      rw [exec_addf_of_addFloat hsum] at hx
      cases hx
      exact ⟨_, exec_addf_of_addFloat ((h.addFloat a b).trans hsum) r, h.writeReg r rfl⟩
  | or r a b => cases hx; exact ⟨_, rfl, h.writeReg r (congrArg₂ (· ||| ·) (h.readReg a) (h.readReg b))⟩
  | and r a b => cases hx; exact ⟨_, rfl, h.writeReg r (congrArg₂ (· &&& ·) (h.readReg a) (h.readReg b))⟩
  | xor r a b => cases hx; exact ⟨_, rfl, h.writeReg r (congrArg₂ (· ^^^ ·) (h.readReg a) (h.readReg b))⟩
  | ror r g x => cases hx; exact ⟨_, rfl, h.writeReg r (congrArg (rotateRight · (rotateCount x)) (h.readReg r))⟩
  | jeq r xy => cases hx; exact ⟨_, rfl, h.branchIf (h.condEqual r) xy⟩
  | halt g => cases hx; exact ⟨_, rfl, h.regs, h.pc, h.mem, h.floatZeroPolicy⟩
  | jlt r xy => cases hx; exact ⟨_, rfl, h.branchIf (h.condLess r) xy⟩

/-- An instruction that stops on one of the states stops on the other: it is ADDF of the same exact zero sum. -/
theorem SameInputs.exec_fault {i : Instr} {r : Fault} (hx : exec i s = .fault r) : exec i s' = .fault r := by
  obtain ⟨rfl, hp, d, a, b, rfl, hzero⟩ := Machine.exec_fault hx
  refine exec_addf_stuck (h.floatZeroPolicy.trans hp) ?_ d
  rw [h.readReg, h.readReg]
  exact (add_decodeFloat_num_eq_zero_iff _ _).mp hzero

end

/-- Settles O33: the two states agree in all that an instruction reads, and it keeps them so. -/
theorem instructionsDoNotReadControlState : Obligations.InstructionsDoNotReadControlState := by
  intro i s s' hregs hpc hmem hpolicy
  have hsame : SameInputs s s' := ⟨hregs, hpc, hmem, hpolicy⟩
  refine ⟨fun t ht => ?_, fun r hr => hsame.exec_fault hr⟩
  obtain ⟨t', ht', hsame'⟩ := hsame.exec_next ht
  exact ⟨t', ht', hsame'.regs, hsame'.pc, hsame'.mem⟩

/-! ## When an instruction does not complete (41_fetch_decode.md R163) -/

/-- Settles O34: `exec` refuses nothing, and its only stop is that of an exact zero sum. -/
theorem instructionsCompleteButForStuckZero : Obligations.InstructionsCompleteButForStuckZero := by
  intro i s
  cases hx : exec i s with
  | next t => exact .inl ⟨t, rfl⟩
  | fault r =>
    obtain ⟨rfl, hp, d, a, b, rfl, hzero⟩ := exec_fault hx
    exact .inr ⟨hp, rfl, d, a, b, rfl, (add_decodeFloat_num_eq_zero_iff _ _).mp hzero⟩
  | refused r => exact absurd hx exec_not_refused

end Sys2Proof.Machine
end

section
/-! PROOF. One cycle and one step (41_fetch_decode.md R150 to R155): the ways a cycle can end with a state, in every FSM state it
can start in, and from these what a step does to `out`, to `pc` and, where it faults, to everything else. -/

namespace Sys2Proof.Machine

/-! ## The ways a cycle can end -/

/-- A cycle from `s` executes in the given state: in the fetched one, or in `s` where the cycle already stands in EXECUTE. -/
inductive ExecutesIn (s : State) : State → Prop where
  | fetched : s.fsm ≠ .execute → s.pc.toNat ≤ 253 → ExecutesIn s s.fetched
  | resumed : s.fsm = .execute → ExecutesIn s s

/-- The ways a cycle can end: the fetch fails, an instruction completes, or the word is no instruction. -/
inductive CycleEnd (s : State) : CycleOutcome → State → Prop where
  | exhausted : 253 < s.pc.toNat → CycleEnd s (.fault .memoryExhausted) s.raiseExhausted
  | executed (e : State) (i : Instr) (u : State) : ExecutesIn s e → decodeWord e.ir = .ok i → Effect i e u →
      CycleEnd s u.closeCycle.1 u.closeCycle.2
  | unknown (e : State) (r : Reject) : ExecutesIn s e → decodeWord e.ir = .error r →
      CycleEnd s (.fault .unknownOpcode) e.raiseUnknown

theorem ExecutesIn.cycleEnd {s e t : State} {o : CycleOutcome} (he : ExecutesIn s e) (h : executePhase e = .next (o, t)) :
    CycleEnd s o t := by
  obtain ⟨i, u, hdecode, hu, hclose⟩ | ⟨r, hdecode, rfl, rfl⟩ := executePhase_next h
  · cases hclose
    exact .executed e i u he hdecode (exec_next hu)
  · exact .unknown e r he hdecode

theorem cycleEnd_of_runCycle {s t : State} {o : CycleOutcome} (h : runCycle s = .next (o, t)) : CycleEnd s o t := by
  obtain ⟨-, ⟨hpc, rfl, rfl⟩ | ⟨hpc, hfsm, hexec⟩ | ⟨hfsm, hexec⟩⟩ := runCycle_next h
  · exact .exhausted hpc
  · exact (ExecutesIn.fetched hfsm hpc).cycleEnd hexec
  · exact (ExecutesIn.resumed hfsm).cycleEnd hexec

theorem cycleEnd_of_step {s t : State} (h : step s = .next t) : ∃ o, CycleEnd s o t :=
  (step_next h).imp fun _ => cycleEnd_of_runCycle

theorem ExecutesIn.of_idle {s e : State} (h : ExecutesIn s e) (hi : s.fsm = .idle) : s.pc.toNat ≤ 253 ∧ e = s.fetched := by
  cases h with
  | fetched _ hpc => exact ⟨hpc, rfl⟩
  | resumed hx => simp [hi] at hx

/-! ## What a cycle leaves -/

theorem ExecutesIn.mem {s e : State} (h : ExecutesIn s e) : e.mem = s.mem := by cases h <;> rfl
theorem ExecutesIn.out {s e : State} (h : ExecutesIn s e) : e.out = s.out := by cases h <;> rfl
theorem ExecutesIn.fault {s e : State} (h : ExecutesIn s e) : e.fault = s.fault := by cases h <;> rfl
theorem ExecutesIn.cycles {s e : State} (h : ExecutesIn s e) : e.cycles = s.cycles := by cases h <;> rfl
theorem ExecutesIn.floatZeroPolicy {s e : State} (h : ExecutesIn s e) : e.floatZeroPolicy = s.floatZeroPolicy := by
  cases h <;> rfl

/-- A cycle does not count itself; a run does (41_fetch_decode.md R157). -/
theorem CycleEnd.cycles {s t : State} {o : CycleOutcome} (h : CycleEnd s o t) : t.cycles = s.cycles := by
  cases h with
  | exhausted => rfl
  | executed e i u he _ heff => exact heff.cycles.trans he.cycles
  | unknown e _ he => exact he.cycles

theorem CycleEnd.floatZeroPolicy {s t : State} {o : CycleOutcome} (h : CycleEnd s o t) :
    t.floatZeroPolicy = s.floatZeroPolicy := by
  cases h with
  | exhausted => rfl
  | executed e i u he _ heff => exact heff.floatZeroPolicy.trans he.floatZeroPolicy
  | unknown e _ he => exact he.floatZeroPolicy

theorem State.closeCycle_ne_fault (s : State) (k : ErrorKind) : s.closeCycle.1 ≠ .fault k := by
  unfold State.closeCycle; split <;> simp

/-- A cycle that ends with a fault leaves FAULTED (41_fetch_decode.md R155). -/
theorem CycleEnd.fsm_of_fault {s t : State} {k : ErrorKind} (h : CycleEnd s (.fault k) t) : t.fsm = .faulted := by
  generalize ho : CycleOutcome.fault k = o at h
  cases h with
  | exhausted | unknown => rfl
  | executed e i u => exact absurd ho.symm (u.closeCycle_ne_fault k)

/-- A cycle that ends with CONTINUE leaves IDLE (41_fetch_decode.md R155). -/
theorem CycleEnd.fsm_of_continue {s t : State} (h : CycleEnd s .continue t) : t.fsm = .idle := by
  generalize ho : CycleOutcome.continue = o at h
  cases h with
  | executed => rfl
  | exhausted | unknown => cases ho

/-! ## The output stream and `pc` -/

/-- Only a STORE to cell 0 changes the output stream, and it appends one byte (20_memory.md R61). -/
theorem Effect.out {i : Instr} {s t : State} (h : Effect i s t) :
    t.out = s.out ∨ ∃ r, i = .store r 0x00#8 ∧ t.out = s.out ++ [s.readReg r] := by
  cases h with
  | cell r xy hi =>
    rw [storeAddress_eq, State.memWrite_out]
    split
    · rename_i hzero; exact .inr ⟨r, hzero ▸ hi, rfl⟩
    · exact .inl rfl
  | _ => exact .inl (by simp)

/-- Settles O29: the fetch and the cycle's end leave `out`, and of the effects only a STORE to cell 0 appends to it. -/
theorem stepsOnlyAppendOutput : Obligations.StepsOnlyAppendOutput := by
  intro s t hi h
  obtain ⟨o, hend⟩ := cycleEnd_of_step h
  cases hend with
  | exhausted => exact .inl rfl
  | unknown e _ he => exact .inl he.out
  | executed e i u he hdecode heff =>
    obtain ⟨-, rfl⟩ := he.of_idle hi
    rcases heff.out with hout | ⟨r, rfl, hout⟩
    · exact .inl hout
    · exact .inr ⟨r, hdecode, hout⟩

/-- Only a branch whose condition holds writes `pc`, with its target (44_control.md R230, R232). -/
theorem Effect.pc {i : Instr} {s t : State} (h : Effect i s t) :
    t.pc = s.pc ∨ (∃ r, i = .jeq r t.pc ∧ s.readReg 0#4 = s.readReg r) ∨
      ∃ r, i = .jlt r t.pc ∧ (s.readReg 0#4).toInt < (s.readReg r).toInt := by
  cases h with
  | jumpEq r xy hi hc => exact .inr (.inl ⟨r, hi, hc⟩)
  | jumpLt r xy hi hc => exact .inr (.inr ⟨r, hi, by simpa only [decodeInt_eq_toInt] using hc⟩)
  | _ => exact .inl (by simp)

/-- Settles O38: the fetch advances `pc` where it succeeds, and of the effects only a taken branch writes it. -/
theorem onlyFetchAndBranchesWritePc : Obligations.OnlyFetchAndBranchesWritePc := by
  intro s t hi h
  obtain ⟨o, hend⟩ := cycleEnd_of_step h
  cases hend with
  | exhausted hpc => exact .inl ⟨hpc, rfl⟩
  | unknown e _ he =>
    obtain ⟨hpc, rfl⟩ := he.of_idle hi
    exact .inr ⟨hpc, .inl rfl⟩
  | executed e i u he hdecode heff =>
    obtain ⟨hpc, rfl⟩ := he.of_idle hi
    refine .inr ⟨hpc, ?_⟩
    rcases heff.pc with hkept | ⟨r, rfl, hc⟩ | ⟨r, rfl, hc⟩
    · exact .inl hkept
    · exact .inr (.inl ⟨r, hdecode, hc⟩)
    · exact .inr (.inr ⟨r, hdecode, hc⟩)

/-! ## Faults are precise (60_exceptions.md R257) -/

theorem State.sameData_raise (s : State) (f : FaultRecord) : SameData s (s.raise f) := ⟨fun _ => rfl, fun _ => rfl, rfl⟩

theorem State.sameData_raise_fetched (s : State) (f : FaultRecord) : SameData s (s.fetched.raise f) :=
  ⟨fun _ => rfl, fun _ => rfl, rfl⟩

/-- Settles O41: an instruction that completes ends no cycle with a fault, and fault entry writes `fault` and `fsm` alone, after
the fetch where it is that of an unknown opcode. -/
theorem cycleFaultsArePrecise : Obligations.CycleFaultsArePrecise := by
  intro s t k hi h
  have hend := cycleEnd_of_runCycle h
  generalize ho : CycleOutcome.fault k = o at hend
  cases hend with
  | exhausted =>
    cases ho
    exact ⟨s.sameData_raise _, rfl, rfl, rfl, rfl, .inl ⟨rfl, rfl, rfl⟩⟩
  | executed e i u => exact absurd ho.symm (u.closeCycle_ne_fault k)
  | unknown e _ he =>
    cases ho
    obtain ⟨-, rfl⟩ := he.of_idle hi
    rw [State.raiseUnknown_fetched]
    exact ⟨s.sameData_raise_fetched _, rfl, rfl, rfl, rfl, .inr ⟨rfl, rfl, rfl⟩⟩

/-! ## A step runs the decoded instruction (41_fetch_decode.md R150 to R152) -/

/-- The end of a cycle, written out: the outcome by the halt flag, which is cleared, and IDLE (41_fetch_decode.md R162). -/
theorem State.closeCycle_eq (s : State) :
    s.closeCycle = (if s.haltFlag then .halted else .continue, { s with haltFlag := false, fsm := .idle }) := rfl

/-- Settles O35: the cycle is the instruction on the fetched state and then the cycle's end. -/
theorem stepRunsTheDecodedInstruction : Obligations.StepRunsTheDecodedInstruction := by
  intro s i hi hpc hw
  have hrun : runCycle s = closeOutcome (exec i s.fetched) := runCycle_of_decoded hi hpc hw
  refine ⟨fun t ht => ?next, fun r hr => ?fault⟩
  case next =>
    have hclose : runCycle s = .next t.closeCycle := hrun.trans (congrArg closeOutcome ht)
    exact ⟨congrArg stateOf hclose, hclose⟩
  case fault => exact congrArg stateOf (hrun.trans (congrArg closeOutcome hr))

/-- Settles O50: the step from power-on, evaluated. -/
theorem powerOnRunFaultsAtOnce : Obligations.PowerOnRunFaultsAtOnce :=
  ⟨State.reset.fetched.raiseUnknown, rfl, rfl, rfl, rfl⟩

/-! ## A store is seen by the next fetch (20_memory.md R74) -/

theorem highByte_memRead2 (s : State) (a : Addr) : highByte (s.memRead2 a) = s.memRead a := highByte_joinBytes _ _

theorem lowByte_memRead2 (s : State) (a : Addr) : lowByte (s.memRead2 a) = s.memRead (a + 1#8) := lowByte_joinBytes _ _

/-- A fetch at a cell puts its byte into the high byte of `ir`. -/
theorem exists_fetch_highByte {t : State} {c : Addr} {v : Byte} (hv : t.memRead c = v) (hc : c.toNat ≤ 253) :
    ∃ f, fsmTransition ({ t with pc := c } : State).beginCycle = .next (none, f) ∧ highByte f.ir = v :=
  ⟨_, fsmTransition_fetch hc, (highByte_memRead2 _ c).trans hv⟩

/-- A fetch one cell below puts the byte into the low byte of `ir`. -/
theorem exists_fetch_lowByte {t : State} {c : Addr} {v : Byte} (hv : t.memRead c = v) (hpos : 1 ≤ c.toNat)
    (hc : c.toNat ≤ 254) :
    ∃ f, fsmTransition ({ t with pc := c - 1#8 } : State).beginCycle = .next (none, f) ∧ lowByte f.ir = v := by
  have hpc : (c - 1#8).toNat ≤ 253 := by bv_omega
  refine ⟨_, fsmTransition_fetch (s := { t with pc := c - 1#8 }) hpc, (lowByte_memRead2 _ _).trans ?_⟩
  exact (congrArg t.memRead (BitVec.sub_add_cancel c 1#8)).trans hv

/-- Settles O28: the step leaves the store's write with IDLE, and a fetch from there reads the written cell as its first or its
second. -/
theorem storesAreSeenByTheNextFetch : Obligations.StoresAreSeenByTheNextFetch := by
  refine ⟨fun r xy u v h => (exec_next h).ir, fun r xy s hi hpc hw => ?_⟩
  have hwritten : (s.fetched.memWrite xy (s.readReg r)).memRead xy = s.readReg r := State.memRead_memWrite_same _ _ _
  refine ⟨(s.fetched.memWrite xy (s.readReg r)).closeCycle.2, step_of_decoded hi hpc hw, rfl,
    fun a ha => s.fetched.memRead_memWrite_of_ne ha _, fun c hc hle => ?high, fun c hc hpos hle => ?low⟩
  case high =>
    obtain rfl : xy = c := hc
    exact exists_fetch_highByte hwritten hle
  case low =>
    obtain rfl : xy = c := hc
    exact exists_fetch_lowByte hwritten hpos hle

/-! ## The FSM's table (41_fetch_decode.md R155) -/

theorem fetchExhausted_eq_false {s : State} (h : s.pc.toNat + 2 ≤ 255) : s.fetchExhausted = false :=
  decide_eq_false (by omega)

/-- The transition out of EXECUTE ends the cycle as the execute phase does. -/
theorem fsmTransition_execute {s : State} (hs : s.fsm = .execute) {o : CycleOutcome} {t : State}
    (h : executePhase s = .next (o, t)) : fsmTransition s = .next (some o, t) := by
  simp only [fsmTransition, hs, h]

theorem exists_reject_of_wordLegal_eq_false {w : Word} (h : wordLegal w = false) : ∃ e, decodeWord w = .error e := by
  rw [← decodeWord_isOk] at h
  cases hw : decodeWord w with
  | ok i => rw [hw] at h; cases h
  | error e => exact ⟨e, rfl⟩

/-- A transition inside a cycle leaves the rest of the cycle to do. -/
theorem runCycle_of_fsmTransition_none {s t : State} (h : fsmTransition s = .next (none, t)) : runCycle s = runCycle t := by
  unfold fsmTransition at h
  split at h
  case h_1 hs => cases h; simp only [runCycle, hs, State.beginCycle_fsm]
  case h_2 hs =>
    split at h
    · cases h
    · rename_i hx
      cases h
      simp only [runCycle, hs, fetchPhase, if_neg hx, State.fetched_fsm]
  case h_3 hs => split at h <;> cases h
  case h_4 hs => cases h

/-- A transition that ends a cycle gives the cycle's outcome and state. -/
theorem runCycle_of_fsmTransition_some {s t : State} {o : CycleOutcome} (h : fsmTransition s = .next (some o, t)) :
    runCycle s = .next (o, t) := by
  unfold fsmTransition at h
  split at h
  case h_1 hs => cases h
  case h_2 hs =>
    split at h
    · rename_i hx
      cases h
      simp only [runCycle, hs, fetchPhase, if_pos hx]
    · cases h
  case h_3 hs =>
    split at h
    · rename_i hx
      cases h
      simpa only [runCycle, hs] using hx
    · cases h
    · cases h
  case h_4 hs => cases h

/-- Settles O39: each row is the transition function's own branch, and a cycle makes the transitions one after another. -/
theorem cycleFollowsTheFsmTable : Obligations.CycleFollowsTheFsmTable := by
  intro s
  refine ⟨fun hs => ?idle, fun hs hpc => ?exhausted, fun hs hpc => ?fetched, fun hs hw => ?unknown,
    fun i t hs hw ht => ?executed, fun i r hs hw hr => ?stuck, fun hs => ?faulted, fun t => runCycle_of_fsmTransition_none,
    fun o t => runCycle_of_fsmTransition_some⟩
  case idle => simp only [fsmTransition, hs]; rfl
  case exhausted => simp only [fsmTransition, hs, (fetchExhausted_iff s).mpr (by omega), if_true]; rfl
  case fetched => simp only [fsmTransition, hs, fetchExhausted_eq_false hpc]; rfl
  case unknown =>
    obtain ⟨e, he⟩ := exists_reject_of_wordLegal_eq_false hw
    exact fsmTransition_execute hs (executePhase_error he)
  case executed =>
    refine fsmTransition_execute hs ?_
    rw [executePhase_ok hw, ht, closeOutcome, State.closeCycle_eq]
  case stuck => simp only [fsmTransition, hs, executePhase_ok hw, hr, closeOutcome]
  case faulted => simp only [fsmTransition, hs]

/-! ## Placing a word for the next fetch (assumption log 11) -/

theorem State.fetchAddr_le (s : State) : s.fetchAddr.toNat ≤ 253 := by
  unfold State.fetchAddr
  split
  · decide
  · rename_i h
    rw [fetchExhausted_iff] at h
    omega

/-- The two bytes placed do not overlap, so both are read back. -/
theorem State.memRead2_placeFetchWord (s : State) (w : Word) :
    (s.placeFetchWord w).memRead2 (s.placeFetchWord w).pc = w := by
  have hread : ∀ a, (s.placeFetchWord w).memRead a =
      ((s.setCell s.fetchAddr (highByte w)).setCell (s.fetchAddr + 1#8) (lowByte w)).memRead a := fun _ => rfl
  have hne : s.fetchAddr ≠ s.fetchAddr + 1#8 := by bv_omega
  change joinBytes ((s.placeFetchWord w).memRead s.fetchAddr) ((s.placeFetchWord w).memRead (s.fetchAddr + 1#8)) = w
  simp only [hread, State.memRead_setCell, if_neg hne, if_true, joinBytes_highByte_lowByte]

theorem tableWord_of_lt {w : Nat} (h : w < 2 ^ 16) : tableWord 16 w = BitVec.ofNat 16 w := by
  rw [tableWord, Nat.mod_eq_of_lt h]

/-- Settles O40: the word's bytes are placed at an address a fetch can read, with `pc` there and IDLE. -/
theorem placedWordIsFetched : Obligations.PlacedWordIsFetched := fun s _ hw =>
  ⟨rfl, s.fetchAddr_le, (s.memRead2_placeFetchWord _).trans (tableWord_of_lt hw), rfl, rfl⟩

end Sys2Proof.Machine
end

section
/-! PROOF. Running (41_fetch_decode.md R156, R157; 70_reset_and_hazards.md R289): a cycle does not read the count of cycles, so a
run is its cycles one after another; and what every cycle keeps, every command that is no load keeps. -/

namespace Sys2Proof.Machine

/-! ## A cycle does not read `cycles` (10_state.md R36) -/

theorem State.memWrite_withCycles (s : State) (n : Nat) (a : Addr) (v : Byte) :
    State.memWrite { s with cycles := n } a v = { s.memWrite a v with cycles := n } := by
  unfold State.memWrite; split <;> rfl

theorem State.branchIf_withCycles (s : State) (n : Nat) (c : Bool) (xy : Addr) :
    State.branchIf { s with cycles := n } c xy = { s.branchIf c xy with cycles := n } := by
  cases c <;> rfl

theorem exec_withCycles {i : Instr} {s t : State} (h : exec i s = .next t) (n : Nat) :
    exec i { s with cycles := n } = .next { t with cycles := n } := by
  cases i with
  | store r xy => cases h; exact congrArg _ (s.memWrite_withCycles n xy _)
  | jeq r xy => cases h; exact congrArg _ (s.branchIf_withCycles n _ xy)
  | jlt r xy => cases h; exact congrArg _ (s.branchIf_withCycles n _ xy)
  | addf r a b =>
    cases hsum : addFloat s.floatZeroPolicy (s.readReg a) (s.readReg b) with
    | none => simp [exec, execAddf, hsum] at h
    | some v =>
      rw [exec_addf_of_addFloat hsum] at h
      cases h
      exact exec_addf_of_addFloat (s := { s with cycles := n }) hsum r
  | _ => cases h; rfl

theorem executePhase_withCycles {s t : State} {o : CycleOutcome} (h : executePhase s = .next (o, t)) (n : Nat) :
    executePhase { s with cycles := n } = .next (o, { t with cycles := n }) := by
  obtain ⟨i, u, hdecode, hu, hclose⟩ | ⟨r, hdecode, rfl, rfl⟩ := executePhase_next h
  · cases hclose
    rw [executePhase_ok (s := { s with cycles := n }) hdecode, exec_withCycles hu]
    rfl
  · exact executePhase_error (s := { s with cycles := n }) hdecode

theorem fetchPhase_withCycles {s t : State} {o : CycleOutcome} (h : fetchPhase s = .next (o, t)) (n : Nat) :
    fetchPhase { s with cycles := n } = .next (o, { t with cycles := n }) := by
  by_cases hx : s.fetchExhausted = true
  · rw [fetchPhase, if_pos hx] at h
    cases h
    exact if_pos hx
  · rw [fetchPhase, if_neg hx] at h
    exact (if_neg hx).trans (executePhase_withCycles h n)

theorem runCycle_withCycles {s t : State} {o : CycleOutcome} (h : runCycle s = .next (o, t)) (n : Nat) :
    runCycle { s with cycles := n } = .next (o, { t with cycles := n }) := by
  obtain ⟨regs, pc, mem, out, haltFlag, fault, fsm, ir, cycles, policy⟩ := s
  cases fsm with
  | idle | fetch => exact fetchPhase_withCycles h n
  | execute => exact executePhase_withCycles h n
  | faulted => cases h

/-! ## The loop of a run, one cycle at a time -/

/-- The cycle's outcome ends the run, as its cycle number `n`, with the result (41_fetch_decode.md R157). -/
inductive EndsRun : CycleOutcome → Nat → RunResult → Prop where
  | halted (n : Nat) : EndsRun .halted n (.halted n)
  | fault (k : ErrorKind) (n : Nat) : EndsRun (.fault k) n (.fault k n)

/-- The loop goes on after a CONTINUE, and its last cycle's outcome is its result. -/
theorem runLoop_succ_next {left : Nat} {s t : State} {r : RunResult} (h : runLoop (left + 1) s = .next (r, t)) :
    (∃ u, runCycle s = .next (.continue, u) ∧ runLoop left u.countCycle = .next (r, t)) ∨
      ∃ o u, runCycle s = .next (o, u) ∧ t = u.countCycle ∧ EndsRun o (u.cycles + 1) r := by
  unfold runLoop at h
  split at h
  case h_1 u hu => exact .inl ⟨u, hu, h⟩
  case h_2 u hu => cases h; exact .inr ⟨_, u, hu, rfl, .halted _⟩
  case h_3 k u hu => cases h; exact .inr ⟨_, u, hu, rfl, .fault k _⟩
  case h_4 | h_5 => cases h

/-- What every cycle and the count of cycles keep, a run keeps. -/
theorem runLoop_keeps {P : State → Prop} (hcycle : ∀ u v o, P u → runCycle u = .next (o, v) → P v)
    (hcycles : ∀ u n, P u → P { u with cycles := n }) {left : Nat} {s t : State} {r : RunResult} (hs : P s)
    (h : runLoop left s = .next (r, t)) : P t := by
  induction left generalizing s with
  | zero => cases h; exact hs
  | succ left ih =>
    obtain ⟨u, hu, hrest⟩ | ⟨o, u, hu, rfl, -⟩ := runLoop_succ_next h
    · exact ih (hcycles u _ (hcycle s u _ hs hu)) hrest
    · exact hcycles u _ (hcycle s u o hs hu)

/-- A run that does not complete is one under `STUCK` (40_codec.md R130). -/
theorem runLoop_fault {left : Nat} {s : State} {r : Fault} (h : runLoop left s = .fault r) :
    r = .floatZeroStuck ∧ s.floatZeroPolicy = .stuck := by
  induction left generalizing s with
  | zero => cases h
  | succ left ih =>
    unfold runLoop at h
    split at h
    case h_1 u hu =>
      obtain ⟨hr, hp⟩ := ih h
      exact ⟨hr, (cycleEnd_of_runCycle hu).floatZeroPolicy ▸ hp⟩
    case h_4 hr => cases h; exact runCycle_fault hr
    case h_2 | h_3 | h_5 => cases h

/-- Within a run no cycle is refused, for after a CONTINUE the FSM is IDLE. -/
theorem runLoop_not_refused {left : Nat} {s : State} (hs : s.fsm ≠ .faulted) (r : Refusal) : runLoop left s ≠ .refused r := by
  intro h
  induction left generalizing s with
  | zero => cases h
  | succ left ih =>
    unfold runLoop at h
    split at h
    case h_1 u hu => exact ih (by simp [(cycleEnd_of_runCycle hu).fsm_of_continue]) h
    case h_5 hr => exact hs (runCycle_refused hr).1
    case h_2 | h_3 | h_4 => cases h

/-! ## A run is its cycles one after another (41_fetch_decode.md R157) -/

/-- From the first state, `n` cycles with outcome CONTINUE lead to the second. -/
inductive Continues : Nat → State → State → Prop where
  | zero (s : State) : Continues 0 s s
  | succ {n : Nat} {s v u : State} : runCycle s = .next (.continue, v) → Continues n v u → Continues (n + 1) s u

/-- How a run of at most `left` cycles ends, the count of cycles aside: after `left` CONTINUEs, or at the first other outcome. -/
theorem continues_of_runLoop {left c : Nat} {s t : State} {r : RunResult}
    (h : runLoop left { s with cycles := c } = .next (r, t)) :
    (Continues left s { t with cycles := s.cycles } ∧ r = .limit (c + left) ∧ t.cycles = c + left) ∨
      ∃ n u o, n < left ∧ Continues n s u ∧ runCycle u = .next (o, { t with cycles := s.cycles }) ∧
        EndsRun o (c + (n + 1)) r ∧ t.cycles = c + (n + 1) := by
  induction left generalizing s c with
  | zero => cases h; exact .inl ⟨.zero s, rfl, rfl⟩
  | succ left ih =>
    obtain ⟨u, hu, hrest⟩ | ⟨o, u, hu, rfl, hends⟩ := runLoop_succ_next h
    all_goals
      have hcycles : u.cycles = c := (cycleEnd_of_runCycle hu).cycles
      have hcycle := runCycle_withCycles hu s.cycles
    · rw [show u.countCycle = { ({ u with cycles := s.cycles } : State) with cycles := c + 1 } by
        rw [State.countCycle, hcycles]] at hrest
      obtain ⟨hrun, hr, ht⟩ | ⟨n, v, o, hn, hrun, hlast, hends, ht⟩ := ih hrest
      · exact .inl ⟨.succ hcycle hrun, by rw [hr, Nat.add_assoc, Nat.add_comm 1], by omega⟩
      · rw [Nat.add_assoc, Nat.add_comm 1] at hends
        exact .inr ⟨n + 1, v, o, by omega, .succ hcycle hrun, hlast, hends, by omega⟩
    · rw [hcycles] at hends
      exact .inr ⟨0, s, o, by omega, .zero s, hcycle, hends, by rw [State.countCycle_cycles, hcycles]⟩

theorem core_run_succ_of_step {s v : State} (h : step s = .next v) (n : Nat) :
    Host.Core.run core (n + 1) s = Host.Core.run core n v := by
  simp only [Host.Core.run, show core.step s = .next v from h]

theorem step_of_runCycle_next {s t : State} {o : CycleOutcome} (h : runCycle s = .next (o, t)) : step s = .next t :=
  congrArg stateOf h

theorem Continues.core_run {n : Nat} {s u : State} (h : Continues n s u) : Host.Core.run core n s = .next u := by
  induction h with
  | zero s => rfl
  | succ hv _ ih => rw [core_run_succ_of_step (step_of_runCycle_next hv), ih]

/-- The step after `n` CONTINUEs is step `n + 1`. -/
theorem Continues.core_run_succ {n : Nat} {s u t : State} {o : CycleOutcome} (h : Continues n s u)
    (hlast : runCycle u = .next (o, t)) : Host.Core.run core (n + 1) s = .next t := by
  induction h with
  | zero s => rw [core_run_succ_of_step (step_of_runCycle_next hlast)]; rfl
  | succ hv _ ih => rw [core_run_succ_of_step (step_of_runCycle_next hv), ih hlast]

/-- The first `j` of `n` CONTINUEs, and the one after them. -/
theorem Continues.exists_prefix {n j : Nat} {s u : State} (h : Continues n s u) (hj : j < n) :
    ∃ v w, Continues j s v ∧ runCycle v = .next (.continue, w) ∧ (j + 1 = n → w = u) := by
  induction h generalizing j with
  | zero => omega
  | @succ n s v u hv hrest ih =>
    cases j with
    | zero =>
      refine ⟨s, v, .zero s, hv, fun hn => ?_⟩
      obtain rfl : 0 = n := by omega
      cases hrest
      rfl
    | succ j =>
      obtain ⟨v', w, hprefix, hcycle, hlast⟩ := ih (show j < n by omega)
      exact ⟨v', w, .succ hv hprefix, hcycle, fun hn => hlast (by omega)⟩

theorem runUntilHaltOrLimit_of_not_faulted {s : State} (hs : s.fsm ≠ .faulted) (m : Nat) :
    runUntilHaltOrLimit m s = runLoop m { s with cycles := 0 } := if_neg hs

theorem runUntilHaltOrLimit_faulted {s : State} (hs : s.fsm = .faulted) (m : Nat) :
    runUntilHaltOrLimit m s = .next (.refused, s) := if_pos hs

/-- Settles O47: a run that completes ends at its limit or with the outcome of its last cycle, and one that does not is under
`STUCK`. -/
theorem runsEndInOneOfThreeWays : Obligations.RunsEndInOneOfThreeWays := by
  intro m s hs
  rw [runUntilHaltOrLimit_of_not_faulted hs]
  cases hrun : runLoop m { s with cycles := 0 } with
  | refused r => exact absurd hrun (runLoop_not_refused (s := { s with cycles := 0 }) hs r)
  | fault r =>
    obtain ⟨rfl, hp⟩ := runLoop_fault hrun
    exact .inl ⟨hp, rfl⟩
  | next p =>
    obtain ⟨r, t⟩ := p
    refine .inr ⟨r, t, rfl, ?_⟩
    obtain ⟨-, rfl, ht⟩ | ⟨n, u, o, hn, -, hlast, hends, ht⟩ := continues_of_runLoop hrun
    · exact .inr (.inr ⟨by rw [Nat.zero_add], by omega⟩)
    · rw [Nat.zero_add] at hends ht
      cases hends with
      | halted => exact .inl ⟨n + 1, by omega, by omega, rfl, ht⟩
      | fault k => exact .inr (.inl ⟨k, n + 1, by omega, by omega, rfl, ht, (cycleEnd_of_runCycle hlast).fsm_of_fault⟩)

/-- Settles O48: all cycles of a run but the last are CONTINUE, so its steps and its cycles are the same, and the last cycle's
outcome or the limit is the result. -/
theorem runsAreRepeatedSteps : Obligations.RunsAreRepeatedSteps := by
  refine ⟨fun _ => rfl, fun m s hs => runUntilHaltOrLimit_faulted hs m, fun m s t r hs h => ?_⟩
  rw [runUntilHaltOrLimit_of_not_faulted hs] at h
  obtain ⟨hrun, rfl, -⟩ | ⟨n, u, o, hn, hrun, hlast, hends, -⟩ := continues_of_runLoop h
  case inl =>
    refine ⟨m, le_rfl, hrun.core_run, fun j hj => ?_, fun hm => ⟨hm, by rw [hm]⟩, fun hm => ?_⟩
    · obtain ⟨v, w, hprefix, hcycle, -⟩ := hrun.exists_prefix (show j < m by omega)
      exact ⟨v, w, hprefix.core_run, hcycle⟩
    · obtain ⟨v, w, hprefix, hcycle, hw⟩ := hrun.exists_prefix (show m - 1 < m by omega)
      obtain rfl := hw (by omega)
      exact ⟨v, .continue, hprefix.core_run, hcycle, .inr (.inr ⟨rfl, by rw [Nat.zero_add], rfl⟩)⟩
  case inr =>
    refine ⟨n + 1, hn, hrun.core_run_succ hlast, fun j hj => ?_, fun h0 => by omega, fun _ => ⟨u, o, hrun.core_run, hlast, ?_⟩⟩
    · obtain ⟨v, w, hprefix, hcycle, -⟩ := hrun.exists_prefix (show j < n by omega)
      exact ⟨v, w, hprefix.core_run, hcycle⟩
    · rw [Nat.zero_add] at hends
      cases hends with
      | halted => exact .inl ⟨rfl, rfl⟩
      | fault k => exact .inr (.inl ⟨k, rfl, rfl⟩)

/-! ## What every command but a load keeps -/

theorem runOneCycle_next {s t : State} {r : StepResult} (h : runOneCycle s = .next (r, t)) :
    t = s ∨ ∃ o, runCycle s = .next (o, t) := by
  unfold runOneCycle at h
  split at h
  · cases h; exact .inl rfl
  · split at h
    · rename_i o u hu
      cases h
      exact .inr ⟨o, hu⟩
    · cases h
    · cases h

/-- What every cycle keeps, and what does not rest on `pc` and `cycles`, every command keeps that is no load. -/
theorem hostCommand_keeps {P : State → Prop} (hcycle : ∀ u v o, P u → runCycle u = .next (o, v) → P v)
    (hcycles : ∀ u n, P u → P { u with cycles := n }) (hpc : ∀ u a, P u → P (u.setPc a)) {c : HostCommand} {s t : State}
    {r : Reply} (h : hostCommand c s = .next (r, t)) (hs : P s) : (∃ src st, c = .loadProgram src st) ∨ P t := by
  rcases hostCommand_next h with (rfl | ⟨a, rfl⟩) | hload | rfl | ⟨m, rfl⟩
  · exact .inr hs
  · exact .inr (hpc s a hs)
  · exact .inl hload
  · obtain ⟨_, -, hrun⟩ := Answer.reply_next h
    obtain rfl | ⟨o, ho⟩ := runOneCycle_next hrun
    · exact .inr hs
    · exact .inr (hcycle s t o hs ho)
  · obtain ⟨_, -, hrun⟩ := Answer.reply_next h
    by_cases hf : s.fsm = .faulted
    · rw [runUntilHaltOrLimit_faulted hf] at hrun
      cases hrun
      exact .inr hs
    · rw [runUntilHaltOrLimit_of_not_faulted hf] at hrun
      exact .inr (runLoop_keeps hcycle hcycles (hcycles s 0 hs) hrun)

/-- A cycle leaves the output stream or appends to it, in whatever FSM state it starts. -/
theorem CycleEnd.out_prefix {s t : State} {o : CycleOutcome} (h : CycleEnd s o t) : s.out <+: t.out := by
  cases h with
  | exhausted => exact List.prefix_rfl
  | unknown e _ he => exact he.out ▸ List.prefix_rfl
  | executed e i u he _ heff =>
    rw [← he.out, State.closeCycle_out]
    rcases heff.out with hout | ⟨r, -, hout⟩
    · rw [hout]
    · exact hout ▸ List.prefix_append _ _

/-- Settles O30: each cycle at most appends to the output stream, and so does every command that is no load. -/
theorem onlyALoadEmptiesOutput : Obligations.OnlyALoadEmptiesOutput := by
  intro c s t r h
  refine (hostCommand_keeps (P := fun u => s.out <+: u.out) (fun u v o hu hv => hu.trans (cycleEnd_of_runCycle hv).out_prefix)
    (fun _ _ hu => hu) (fun _ _ hu => hu) h List.prefix_rfl).imp_right fun hprefix => ?_
  obtain ⟨more, hmore⟩ := hprefix
  exact ⟨more, hmore.symm⟩

end Sys2Proof.Machine
end

section
/-! PROOF. The invariant between host commands (10_state.md R29, R30, R33; 60_exceptions.md R250): power-on meets it, and every
cycle, every load and so every command keeps it. -/

namespace Sys2Proof.Machine

/-! ## The two ways to meet the invariant -/

theorem State.inv_of_idle {s : State} (hmem : Memory.wf s.mem = true) (hhalt : s.haltFlag = false) (hfsm : s.fsm = .idle)
    (hfault : s.fault = none) : s.Inv where
  memCanonical := hmem
  haltClear := hhalt
  atBoundary := .inl hfsm
  latchedIffFaulted := by simp [hfsm, hfault]
  infoConsistent f hf := by rw [hfault] at hf; cases hf

/-- Fault entry with the info of the fault's kind (60_exceptions.md R257). -/
theorem State.inv_raise {s : State} {f : FaultRecord} (hmem : Memory.wf s.mem = true) (hhalt : s.haltFlag = false)
    (hf : f.consistent = true) : (s.raise f).Inv where
  memCanonical := hmem
  haltClear := hhalt
  atBoundary := .inr rfl
  latchedIffFaulted := ⟨fun _ => Option.some_ne_none f, fun _ => rfl⟩
  infoConsistent g hg := by
    obtain rfl : f = g := Option.some.inj hg
    exact hf

theorem State.Inv.fault_eq_none {s : State} (h : s.Inv) (hi : s.fsm = .idle) : s.fault = none := by
  by_contra hne
  have hfaulted := h.latchedIffFaulted.mpr hne
  rw [hi] at hfaulted
  cases hfaulted

theorem State.Inv.setPc {s : State} (h : s.Inv) (a : Addr) : (s.setPc a).Inv :=
  ⟨h.memCanonical, h.haltClear, h.atBoundary, h.latchedIffFaulted, h.infoConsistent⟩

theorem State.Inv.withCycles {s : State} (h : s.Inv) (n : Nat) : State.Inv { s with cycles := n } :=
  ⟨h.memCanonical, h.haltClear, h.atBoundary, h.latchedIffFaulted, h.infoConsistent⟩

/-! ## Cycles -/

/-- The record of an unknown opcode is consistent: its word is not legal, and a fetch at its address was possible. -/
theorem consistent_unknownOpcode {w : Word} {e : Reject} {a : Addr} (hw : decodeWord w = .error e) (ha : a.toNat ≤ 253) :
    (FaultRecord.unknownOpcode w a).consistent = true := by
  have hlegal : wordLegal w = false := by rw [← decodeWord_isOk, hw]; rfl
  simp [FaultRecord.consistent, hlegal, ha]

/-- A cycle that completes keeps the invariant, which lets it start in IDLE only. -/
theorem State.Inv.of_runCycle {s t : State} {o : CycleOutcome} (hinv : s.Inv) (h : runCycle s = .next (o, t)) : t.Inv := by
  have hi : s.fsm = .idle := hinv.atBoundary.resolve_right (runCycle_next h).1
  cases cycleEnd_of_runCycle h with
  | exhausted hpc => exact State.inv_raise hinv.memCanonical hinv.haltClear (decide_eq_true hpc)
  | executed e i u he _ heff =>
    have hmem : Memory.wf e.mem = true := he.mem ▸ hinv.memCanonical
    exact State.inv_of_idle (heff.wf hmem) rfl rfl (heff.fault.trans (he.fault.trans (hinv.fault_eq_none hi)))
  | unknown e r he hdecode =>
    obtain ⟨hpc, rfl⟩ := he.of_idle hi
    rw [State.raiseUnknown_fetched]
    exact State.inv_raise hinv.memCanonical hinv.haltClear (consistent_unknownOpcode hdecode hpc)

/-! ## Loads -/

theorem State.loadWord_wf {s : State} (a : Addr) (w : Word) (h : Memory.wf s.mem = true) :
    Memory.wf (s.loadWord a w).mem = true :=
  State.memWrite_wf _ _ (State.memWrite_wf _ _ h)

/-- The loop of a load ends in a state that meets the invariant, whatever `fault` and `fsm` were: each of its ends writes them. -/
theorem State.inv_loadTokens {tks : List (List Char)} {n a : Nat} {s : State} (ha : a ≤ 256) (hmem : Memory.wf s.mem = true)
    (hhalt : s.haltFlag = false) : (State.loadTokens tks n a s).2.Inv := by
  induction tks generalizing n a s with
  | nil => exact State.inv_of_idle hmem hhalt rfl rfl
  | cons tk tks ih =>
    cases hw : parseWord (tk.map upperChar) with
    | none =>
      rw [State.loadTokens_malformed hw]
      exact State.inv_raise hmem hhalt (Option.isNone_iff_eq_none.mpr hw)
    | some w =>
      by_cases hroom : a + 2 ≤ 256
      · rw [State.loadTokens_word hw hroom]
        exact ih hroom (State.loadWord_wf _ _ hmem) (by rw [State.loadWord_haltFlag, hhalt])
      · have hfull : 255 ≤ a := by omega
        rw [State.loadTokens_noRoom hw hfull]
        exact State.inv_raise hmem hhalt (by simp [FaultRecord.consistent, hfull, ha])

theorem State.Inv.loadProgram {s : State} (h : s.Inv) (src st : List Char) : (s.loadProgram src st).2.Inv := by
  cases hst : parseStart st with
  | none =>
    rw [State.loadProgram_of_start_none hst]
    exact State.inv_raise h.memCanonical h.haltClear (Option.isNone_iff_eq_none.mpr hst)
  | some a =>
    rw [State.loadProgram_of_start hst]
    exact State.inv_loadTokens (by omega) Memory.wf_nil rfl

/-! ## The statements -/

/-- Settles O56: power-on is IDLE with no fault, with no cell listed. -/
theorem powerOnMeetsInvariant : Obligations.PowerOnMeetsInvariant := State.inv_of_idle Memory.wf_nil rfl rfl rfl

/-- Settles O57: a step is a cycle, whose every end keeps the invariant. -/
theorem stepsKeepInvariant : Obligations.StepsKeepInvariant := by
  intro s t hinv h
  obtain ⟨o, ho⟩ := step_next h
  exact hinv.of_runCycle ho

theorem State.Inv.of_hostCommand {c : HostCommand} {s t : State} {r : Reply} (hinv : s.Inv)
    (h : hostCommand c s = .next (r, t)) : t.Inv := by
  rcases hostCommand_keeps (P := State.Inv) (fun _ _ _ hu hv => hu.of_runCycle hv) (fun _ n hu => hu.withCycles n)
    (fun _ a hu => hu.setPc a) h hinv with ⟨src, st, rfl⟩ | ht
  · cases h
    exact hinv.loadProgram _ _
  · exact ht

/-- Settles O58: a load ends in the invariant, every other command keeps what cycles keep, and power-on meets it. -/
theorem reachableStatesMeetInvariant : Obligations.ReachableStatesMeetInvariant := by
  refine ⟨fun c s t r hinv h => hinv.of_hostCommand h, fun s hs => ?_⟩
  induction hs with
  | reset => exact powerOnMeetsInvariant
  | command c s t r _ h ih => exact ih.of_hostCommand h

end Sys2Proof.Machine
end

section
/-! PROOF. Program text (30_encoding.md R97; 70_reset_and_hazards.md R282): hex digits, words and start addresses are parsed from
their own text only, and tokens are the maximal runs of non-whitespace. -/

namespace Sys2Proof.Machine

/-! ## Hex digits (40_codec.md R120) -/

@[simp] theorem hexValue_hexDigit (d : Digit) : hexValue (hexDigit d) = some d := by
  revert d; decide

/-- No other character has the value of a digit. -/
theorem eq_hexDigit_of_hexValue {c : Char} {d : Digit} (h : hexValue c = some d) : c = hexDigit d := by
  unfold hexValue at h
  split at h
  case isTrue hdec =>
    obtain rfl : BitVec.ofNat 4 (c.toNat - 48) = d := Option.some.inj h
    have hn : (BitVec.ofNat 4 (c.toNat - 48)).toNat = c.toNat - 48 := by rw [BitVec.toNat_ofNat]; omega
    rw [hexDigit, hn, if_pos (by omega), show 48 + (c.toNat - 48) = c.toNat by omega, Char.ofNat_toNat]
  case isFalse =>
    split at h
    case isTrue hletter =>
      obtain rfl : BitVec.ofNat 4 (c.toNat - 55) = d := Option.some.inj h
      have hn : (BitVec.ofNat 4 (c.toNat - 55)).toNat = c.toNat - 55 := by rw [BitVec.toNat_ofNat]; omega
      rw [hexDigit, hn, if_neg (by omega), show 55 + (c.toNat - 55) = c.toNat by omega, Char.ofNat_toNat]
    case isFalse => cases h

/-! ## Hex text -/

@[simp] theorem hexText_append (hi lo : Digit) : hexText (hi ++ lo : BitVec 8) = [hexDigit hi, hexDigit lo] := by
  rw [hexText, show (hi ++ lo : BitVec 8).extractLsb' 4 4 = hi from BitVec.extractLsb'_append_eq_left,
    show (hi ++ lo : BitVec 8).extractLsb' 0 4 = lo from BitVec.extractLsb'_append_eq_right]

/-- A byte is its two digits joined. -/
theorem exists_digits (b : Byte) : ∃ hi lo : Digit, b = (hi ++ lo : BitVec 8) := by
  refine ⟨b.extractLsb' 4 4, b.extractLsb' 0 4, ?_⟩
  have hjoin : (b.extractLsb' 4 4 ++ b.extractLsb' 0 4 : BitVec 8) = b.extractLsb' 0 8 :=
    BitVec.extractLsb'_append_extractLsb'_eq_extractLsb' rfl
  rw [hjoin, BitVec.extractLsb'_eq_self]

@[simp] theorem wordText_joinBytes (hi lo : Byte) : wordText (joinBytes hi lo) = hexText hi ++ hexText lo := by
  rw [wordText, highByte_joinBytes, lowByte_joinBytes]

theorem joinBytes_append (a b c d : Digit) :
    joinBytes (a ++ b : BitVec 8) (c ++ d : BitVec 8) = (a ++ b ++ c ++ d : BitVec 16) :=
  (BitVec.append_assoc (x₁ := (a ++ b : BitVec 8)) (x₂ := c) (x₃ := d)).symm

/-! ## Start addresses and words -/

theorem eq_hexText_of_parseStart {st : List Char} {a : Addr} (h : parseStart st = some a) : st = hexText a := by
  unfold parseStart at h
  split at h
  · split at h
    · rename_i h0 h1
      cases h
      rw [hexText_append, eq_hexDigit_of_hexValue h0, eq_hexDigit_of_hexValue h1]
    · cases h
  · cases h

theorem parseWord_wordText (w : Word) : parseWord (wordText w) = some w := by
  obtain ⟨a, b, hhigh⟩ := exists_digits (highByte w)
  obtain ⟨c, d, hlow⟩ := exists_digits (lowByte w)
  rw [← joinBytes_highByte_lowByte w, hhigh, hlow, wordText_joinBytes, hexText_append, hexText_append]
  simp [parseWord, joinBytes_append]

theorem eq_wordText_of_parseWord {tk : List Char} {w : Word} (h : parseWord tk = some w) : tk = wordText w := by
  unfold parseWord at h
  split at h
  · split at h
    · rename_i h0 h1 h2 h3
      cases h
      rw [← joinBytes_append, wordText_joinBytes, hexText_append, hexText_append, eq_hexDigit_of_hexValue h0,
        eq_hexDigit_of_hexValue h1, eq_hexDigit_of_hexValue h2, eq_hexDigit_of_hexValue h3]
      rfl
    · cases h
  · cases h

/-- Settles O54: the start text of no address is parsed, so the load fails before it resets anything. -/
theorem malformedStartChangesNothingElse : Obligations.MalformedStartChangesNothingElse := by
  intro s src st hst
  have hnone : parseStart st = none :=
    Option.eq_none_iff_forall_ne_some.mpr fun a ha => hst ⟨a, eq_hexText_of_parseStart ha⟩
  exact State.loadProgram_of_start_none hnone s src

/-! ## Characters -/

theorem isSpace_iff (c : Char) : isSpace c = true ↔ c ∈ [' ', '\t', '\n', Char.ofNat 11, Char.ofNat 12, '\r'] := by
  have hchar : ∀ d : Char, c = d ↔ c.toNat = d.toNat := fun d => Char.toNat_inj.symm
  simp only [isSpace, Bool.or_eq_true, beq_iff_eq, Bool.and_eq_true, decide_eq_true_eq, List.mem_cons, hchar, List.not_mem_nil,
    or_false, show ' '.toNat = 32 by decide, show '\t'.toNat = 9 by decide, show '\n'.toNat = 10 by decide,
    show (Char.ofNat 11).toNat = 11 by decide, show (Char.ofNat 12).toNat = 12 by decide, show '\r'.toNat = 13 by decide]
  omega

theorem upperChar_of_lower (n : Fin 26) : upperChar (Char.ofNat (97 + n)) = Char.ofNat (65 + n) := by
  revert n; decide

theorem upperChar_of_not_lower {c : Char} (h : c.toNat < 97 ∨ 122 < c.toNat) : upperChar c = c := if_neg (by omega)

/-! ## Tokens -/

/-- Non-whitespace is gathered into the current token. -/
theorem tokensFrom_run {run : List Char} (hrun : ∀ c ∈ run, isSpace c = false) (rest cur : List Char) :
    tokensFrom (run ++ rest) cur = tokensFrom rest (run.reverse ++ cur) := by
  induction run generalizing cur with
  | nil => rfl
  | cons c run ih =>
    obtain ⟨hc, hrun⟩ := List.forall_mem_cons.mp hrun
    rw [List.cons_append, tokensFrom, if_neg (by simp [hc]), ih hrun, List.reverse_cons, List.append_assoc]
    rfl

/-- Whitespace with no current token is skipped. -/
theorem tokensFrom_spaces {sp : List Char} (hsp : ∀ c ∈ sp, isSpace c = true) (rest : List Char) :
    tokensFrom (sp ++ rest) [] = tokensFrom rest [] := by
  induction sp with
  | nil => rfl
  | cons c sp ih =>
    obtain ⟨hc, hsp⟩ := List.forall_mem_cons.mp hsp
    rw [List.cons_append, tokensFrom, if_pos hc]
    exact ih hsp

/-- A run and the whitespace after it are one token. -/
theorem tokensFrom_run_spaces {run sp : List Char} (hne : run ≠ []) (hrun : ∀ c ∈ run, isSpace c = false) (hsp₀ : sp ≠ [])
    (hsp : ∀ c ∈ sp, isSpace c = true) (rest : List Char) :
    tokensFrom (run ++ sp ++ rest) [] = run :: tokensFrom rest [] := by
  obtain ⟨c, sp, rfl⟩ := List.exists_cons_of_ne_nil hsp₀
  obtain ⟨hc, hsp⟩ := List.forall_mem_cons.mp hsp
  rw [List.append_assoc, tokensFrom_run hrun, List.append_nil, List.cons_append, tokensFrom, if_pos hc,
    if_neg (by simpa using hne), List.reverse_reverse, tokensFrom_spaces hsp]

/-- A last run ends with the text; it is a token unless it is empty. -/
theorem tokensFrom_last {last : List Char} (hlast : ∀ c ∈ last, isSpace c = false) :
    tokensFrom last [] = if last = [] then [] else [last] := by
  have hrun := tokensFrom_run hlast [] []
  rw [List.append_nil] at hrun
  rw [hrun]
  simp [tokensFrom]

/-- Settles O55: whitespace at the front is skipped, and each run is one token, ended by whitespace or by the end of the text. -/
theorem tokensAreMaximalRuns : Obligations.TokensAreMaximalRuns := by
  refine ⟨isSpace_iff, upperChar_of_lower, fun _ => upperChar_of_not_lower, fun lead parts last hlead hparts hlast => ?tokens,
    fun tk w => ⟨eq_wordText_of_parseWord, ?word⟩⟩
  case word =>
    rintro rfl
    exact parseWord_wordText w
  case tokens =>
    rw [tokens, List.append_assoc, tokensFrom_spaces hlead]
    induction parts with
    | nil => exact tokensFrom_last hlast
    | cons p parts ih =>
      obtain ⟨⟨hne, hrun, hsp₀, hsp⟩, hparts⟩ := List.forall_mem_cons.mp hparts
      rw [List.flatMap_cons, List.append_assoc, tokensFrom_run_spaces hne hrun hsp₀ hsp, ih hparts]
      rfl

end Sys2Proof.Machine
end

section
/-! PROOF. Float bytes as rationals (40_codec.md R126, R127, R132): a byte's value and its bounds, and that a rational has one
encoding, so the encoder depends on the rational only and gives a decoded byte back. -/

namespace Sys2Proof.Machine

/-! ## The value of a byte (40_codec.md R125, R126) -/

theorem floatExp_lt (b : Byte) : floatExp b < 8 := (b.extractLsb' 4 3).isLt

theorem floatFrac_lt (b : Byte) : floatFrac b < 16 := (b.extractLsb' 0 4).isLt

/-- The magnitude is the formula of R125 without its sign. -/
theorem abs_floatValue (b : Byte) :
    |floatValue b| = (1 + (floatFrac b : ℚ) / 16) * (2 : ℚ) ^ ((floatExp b : ℤ) - 4) := by
  have hsign : |(if floatSign b then -1 else 1 : ℚ)| = 1 := by split <;> simp
  have hpos : (0 : ℚ) ≤ 1 + (floatFrac b : ℚ) / 16 := by positivity
  rw [floatValue, abs_mul, abs_mul, hsign, one_mul, abs_of_nonneg hpos, abs_of_pos (by positivity)]

/-- The factor of the fraction field lies in [1, 31/16]. -/
theorem fraction_factor_bounds (b : Byte) : 1 ≤ 1 + (floatFrac b : ℚ) / 16 ∧ 1 + (floatFrac b : ℚ) / 16 ≤ 31 / 16 := by
  have hM : (floatFrac b : ℚ) ≤ 15 := by exact_mod_cast Nat.le_of_lt_succ (floatFrac_lt b)
  constructor
  · linarith [show (0 : ℚ) ≤ floatFrac b by positivity]
  · linarith

/-- The factor of the exponent field lies in [1/16, 8]. -/
theorem exponent_factor_bounds (b : Byte) :
    1 / 16 ≤ (2 : ℚ) ^ ((floatExp b : ℤ) - 4) ∧ (2 : ℚ) ^ ((floatExp b : ℤ) - 4) ≤ 8 := by
  have hE := floatExp_lt b
  have hlo : (2 : ℚ) ^ (-4 : ℤ) ≤ 2 ^ ((floatExp b : ℤ) - 4) := zpow_le_zpow_right₀ one_le_two (by omega)
  have hhi : (2 : ℚ) ^ ((floatExp b : ℤ) - 4) ≤ 2 ^ (3 : ℤ) := zpow_le_zpow_right₀ one_le_two (by omega)
  norm_num at hlo hhi
  exact ⟨by linarith, hhi⟩

/-- Settles O20: the decoder's denominator is 256, and the magnitude is the product of its two factors. -/
theorem floatValuesAreBounded : Obligations.FloatValuesAreBounded := by
  intro b
  obtain ⟨hfrac, hfrac'⟩ := fraction_factor_bounds b
  obtain ⟨hexp, hexp'⟩ := exponent_factor_bounds b
  refine ⟨⟨(decodeFloat b).num, ?_⟩, ?_, ?_⟩
  · rw [← decodeFloat_value, Frac.value, decodeFloat_den, Nat.cast_ofNat]
  · rw [abs_floatValue]
    nlinarith
  · rw [abs_floatValue]
    nlinarith

/-! ## One encoding for a rational (40_codec.md R127) -/

/-- A byte is its three fields (40_codec.md R124). -/
theorem byte_ext_fields {b c : Byte} (hsign : floatSign b = floatSign c) (hexp : floatExp b = floatExp c)
    (hfrac : floatFrac b = floatFrac c) : b = c := by
  have hpack : ∀ d : Byte, d = BitVec.ofNat 8 ((if floatSign d then 128 else 0) + floatExp d * 16 + floatFrac d) := by decide
  rw [hpack b, hpack c, hsign, hexp, hfrac]

/-- The exponent of a magnitude, the floor of its logarithm, is unique. -/
theorem exponent_unique {x : ℚ} {e e' : ℤ} (h : (2 : ℚ) ^ e ≤ x) (hlt : x < 2 ^ (e + 1)) (h' : (2 : ℚ) ^ e' ≤ x)
    (hlt' : x < 2 ^ (e' + 1)) : e = e' := by
  have h1 : e < e' + 1 := (zpow_lt_zpow_iff_right₀ one_lt_two).mp (h.trans_lt hlt')
  have h2 : e' < e + 1 := (zpow_lt_zpow_iff_right₀ one_lt_two).mp (h'.trans_lt hlt)
  omega

theorem IsFloatEncoding.unique {q : ℚ} {b c : Byte} (hb : IsFloatEncoding q b) (hc : IsFloatEncoding q c) : b = c := by
  obtain ⟨e, hle, hlt, hsign, hexp, hfrac⟩ := hb
  obtain ⟨e', hle', hlt', hsign', hexp', hfrac'⟩ := hc
  obtain rfl : e = e' := exponent_unique hle hlt hle' hlt'
  refine byte_ext_fields (Bool.eq_iff_iff.mpr (hsign.trans hsign'.symm)) ?_ ?_
  · exact_mod_cast hexp.trans hexp'.symm
  · exact_mod_cast hfrac.trans hfrac'.symm

/-- Settles O22: zero is zero as any fraction, and the two bytes of a rational that is not zero are encodings of it. -/
theorem encodingDependsOnTheValueOnly : Obligations.EncodingDependsOnTheValueOnly := by
  intro p q q' hd hd' hval
  by_cases hq : q.num = 0
  · have hq' : q'.num = 0 := by rw [← Frac.value_eq_zero_iff hd', ← hval, Frac.value_eq_zero_iff hd, hq]
    cases p with
    | encode00 => rw [encodeFloat_encode00_of_eq_zero hq, encodeFloat_encode00_of_eq_zero hq']
    | stuck => rw [encodeFloat_eq_none_iff.mpr ⟨hq, rfl⟩, encodeFloat_eq_none_iff.mpr ⟨hq', rfl⟩]
  · have hq' : q'.num ≠ 0 := by rwa [Ne, ← Frac.value_eq_zero_iff hd', ← hval, Frac.value_eq_zero_iff hd]
    rw [encodeFloat_of_ne_zero p hq, encodeFloat_of_ne_zero p hq',
      (isFloatEncoding_encodeNonzero hq hd).unique (hval ▸ isFloatEncoding_encodeNonzero hq' hd')]

/-! ## Decoding and encoding again (40_codec.md R132) -/

theorem floatValue_neg_iff (b : Byte) : floatValue b < 0 ↔ floatSign b = true := by
  have hpos : (0 : ℚ) < (1 + (floatFrac b : ℚ) / 16) * (2 : ℚ) ^ ((floatExp b : ℤ) - 4) := by positivity
  rw [floatValue, mul_assoc]
  cases floatSign b
  · simpa using hpos.le
  · simpa using hpos

/-- Every byte is an encoding of its value, with the exponent `E - 4`. -/
theorem isFloatEncoding_floatValue (b : Byte) : IsFloatEncoding (floatValue b) b := by
  obtain ⟨hge, hle⟩ := fraction_factor_bounds b
  have hpow : (0 : ℚ) < 2 ^ ((floatExp b : ℤ) - 4) := by positivity
  refine ⟨(floatExp b : ℤ) - 4, ?lower, ?upper, (floatValue_neg_iff b).symm, ?exponent, ?fraction⟩
  case lower => rw [abs_floatValue]; exact le_mul_of_one_le_left hpow.le hge
  case upper =>
    rw [abs_floatValue, zpow_add_one₀ two_ne_zero, mul_comm]
    exact mul_lt_mul_of_pos_left (by linarith) hpow
  case exponent => have := floatExp_lt b; omega
  case fraction =>
    have hfield : (1 + (floatFrac b : ℚ) / 16 - 1) * 16 = (floatFrac b : ℤ) := by push_cast; ring
    rw [abs_floatValue, mul_div_cancel_right₀ _ hpow.ne', hfield, Int.floor_intCast]

/-- Settles O23: a byte and the encoding of its value are both encodings of one rational. -/
theorem floatCodecRoundTrips : Obligations.FloatCodecRoundTrips := by
  intro p b
  have hnum : (decodeFloat b).num ≠ 0 := decodeFloat_num_ne_zero b
  have hencoded := isFloatEncoding_encodeNonzero hnum (by simp)
  rw [decodeFloat_value] at hencoded
  rw [encodeFloat_of_ne_zero p hnum, hencoded.unique (isFloatEncoding_floatValue b)]

end Sys2Proof.Machine
end
